-- ==== Sys2Proof/Word.lean ====
section
/-! DEFINITION. The words the engine handles: bytes, 32-bit registers, 16-byte blocks, keys, the cipher's
answers, and the names of the byte stores (spec/00_scope.md R6, R8 to R10). -/

namespace Sys2Proof

/-- A byte (R9). -/
abbrev Byte := BitVec 8

/-- A control register, a command word or a `CipherError` (R9, R8). -/
abbrev Word := BitVec 32

/-- A byte sequence of length exactly 16, indices 0 to 15 (R10). Both operands of the XOR have this type, so
the length mismatch of R151 cannot be expressed. -/
abbrev Block := Vector Byte 16

/-- The key lengths in bytes that the source admits: "exactly 16, 24, or 32 bytes" (R6). -/
abbrev ValidKeyLength (n : Nat) : Prop := n = 16 ∨ n = 24 ∨ n = 32

/-- A key on the cipher port: a byte sequence of a valid length, which selects the cipher's variant
(R8, R153). -/
structure Key where
  bytes : List Byte
  valid : ValidKeyLength bytes.length
  deriving DecidableEq, Repr

/-- The opaque error word of the cipher capability, 32 bits (R8). -/
abbrev CipherError := Word

/-- The capability's answer to one request: `Ok(out)` or `Err(e)` (R8, R152). -/
inductive CipherResponse where
  | ok (out : Block)
  | err (e : CipherError)
  deriving DecidableEq, Repr, Inhabited

/-- The four byte stores (spec/20_memory.md R60). -/
inductive Store where
  | key
  | iv
  | ibuf
  | obuf
  deriving DecidableEq, Repr

end Sys2Proof
end

