-- ==== Sys2Proof/Config.lean ====
section
/-! DEFINITION. What an implementation fixes: the open parameters `BUFCAP`, `CipherEnc`, `CipherDec` and `BUSMAP`
(spec/00_scope.md R7, R8; spec/92_eei_decisions.md P1 to P3), as opaque constants, so that no proof can see a value
of one; and the named hypotheses a claim may add. -/

namespace Sys2Proof

/-- The parameters of the step relation (R20: "Not state, but parameters of the step relation"). -/
structure Platform where
  /-- `BUFCAP / 16 - 1`. `BUFCAP` is a multiple of 16 with `16 <= BUFCAP <= 2^32 - 16`, so `BUFCAP / 16` is
  1 to 2^28 - 1 (R7). -/
  extraBlocks : Fin 268435455
  /-- `CipherEnc`, total and pure (R8). -/
  cipherEnc : Key → Block → CipherResponse
  /-- `CipherDec`, total and pure (R8). -/
  cipherDec : Key → Block → CipherResponse

/-- `BUFCAP`: the size in bytes of `IBUF` and of `OBUF` (R7). -/
def Platform.bufcap (P : Platform) : Nat := 16 * (P.extraBlocks.val + 1)

/-- Hypothesis `CipherInverse` of R8: deciphering undoes every enciphering that succeeds. -/
def Platform.CipherInverse (P : Platform) : Prop :=
  ∀ (k : Key) (b e : Block), P.cipherEnc k b = .ok e → P.cipherDec k e = .ok b

/-- Hypothesis `CipherNeverFails` of R8: both functions return `Ok` for every valid key and block. -/
def Platform.CipherNeverFails (P : Platform) : Prop :=
  ∀ (k : Key) (b : Block), (∃ e, P.cipherEnc k b = .ok e) ∧ (∃ d, P.cipherDec k b = .ok d)

/-- What a bus address stands for: a register number or an index of a byte store (R7, R60). -/
inductive Port where
  | register (n : Nat)
  | byte (store : Store) (i : Nat)
  deriving DecidableEq, Repr

/-- The open parameter `BUFCAP` (P1), as `BUFCAP / 16 - 1`. -/
opaque Config.extraBlocks : Fin 268435455

/-- The open parameter `CipherEnc` (P2). -/
opaque Config.cipherEnc : Key → Block → CipherResponse

/-- The open parameter `CipherDec` (P2). -/
opaque Config.cipherDec : Key → Block → CipherResponse

/-- The open parameter `BUSMAP` (P3): where a platform places the engine in a host's address space. "No rule
depends on it" (R7), and nothing in the machine reads it. -/
opaque Config.busmap : Port → Nat

/-- The platform the machine runs on. -/
def Config.platform : Platform where
  extraBlocks := Config.extraBlocks
  cipherEnc := Config.cipherEnc
  cipherDec := Config.cipherDec

/-- Whether a port exists: register numbers 0 to 4 (spec/10_state.md R30) and the in-range indices of the stores
(spec/20_memory.md R60). -/
def Port.Exists (cap : Nat) : Port → Prop
  | .register n => n ≤ 4
  | .byte .key i => i < 32
  | .byte .iv i => i < 16
  | .byte .ibuf i => i < cap
  | .byte .obuf i => i < cap

/-- The constraint R7 puts on `BUSMAP`: it is injective. A claim that needs it takes it as a hypothesis. -/
def Config.BusmapInjective : Prop :=
  ∀ p q : Port, p.Exists Config.platform.bufcap → q.Exists Config.platform.bufcap →
    Config.busmap p = Config.busmap q → p = q

end Sys2Proof
end

