-- ==== Sys2Proof/Syntax.lean ====
section
/-! DEFINITION. The engine's two commands, one constructor for each row of spec/opcode_table.json
(spec/30_encoding.md R90, R91). -/

namespace Sys2Proof

/-- A command. `klen` and `ivlen` are the claimed lengths in bytes of the key and of the IV, "not scaled, not
shifted, not sign-extended, not encoded" (R92). -/
inductive Instr where
  /-- `ENCRYPT klen, ivlen` (spec/43_mode_facade.md R200). -/
  | encrypt (klen ivlen : Nat)
  /-- `DECRYPT klen, ivlen` (spec/43_mode_facade.md R201). -/
  | decrypt (klen ivlen : Nat)
  deriving DecidableEq, Repr

end Sys2Proof
end

