-- ==== Sys2Proof/Machine/State.lean ====
section
/-! DEFINITION. The state of one engine instance (spec/10_state.md R20), its reset value (R48), and the reasons a
step can stop. -/

namespace Sys2Proof.Machine

/-- A sparse byte store: the bytes that differ from `0x00`, by rising index. What an unlisted index reads as is
`unlistedByte` in Machine/Ops.lean; the canonical form is `Memory.wf` there. -/
structure Memory where
  cells : List Host.Cell
  deriving DecidableEq, Repr

/-- The sequencer's phase (R40). -/
inductive Phase where
  | idle
  | decode
  | validate
  | lencheck
  | chain
  | unpad
  | commit
  deriving DecidableEq, Repr

/-- The seven result codes (spec/60_exceptions.md R220); codes 7 to 15 are never produced, so they have no
constructor. -/
inductive ResultCode where
  | ok
  | invalidParameters
  | invalidCiphertextLength
  | invalidPadding
  | underlyingCipherFailure
  | illegalCommand
  | capacityExceeded
  deriving DecidableEq, Repr

/-- The three fields of the `STATUS` register; its other bits are hardwired zero and are not stored (R33). -/
structure Status where
  busy : Bool
  done : Bool
  code : ResultCode
  deriving DecidableEq, Repr

/-- The direction of a cipher request (spec/42_chain_engine.md R152). -/
inductive Direction where
  | enc
  | dec
  deriving DecidableEq, Repr

/-- One record `CipherCall(dir, key, block_in, result)` of the trace (spec/00_scope.md R14). -/
structure CipherCall where
  dir : Direction
  key : Key
  blockIn : Block
  result : CipherResponse
  deriving DecidableEq, Repr

/-- A host access: the four primitives `WR`, `RD`, `WRB`, `RDB` (spec/30_encoding.md R99; spec/20_memory.md R63
to R66). Register numbers and indices are unbounded: what lies outside is defined too (R36, R68). -/
inductive Access where
  | writeReg (n : Nat) (v : Word)
  | readReg (n : Nat)
  | writeByte (store : Store) (i : Nat) (v : Byte)
  | readByte (store : Store) (i : Nat)
  deriving DecidableEq, Repr

/-- What comes to the engine from outside, one at a time. DESIGN CHOICE (notes/assumptions/2.md, 3.md): the
interleaving that spec/20_memory.md R73 leaves free is data. -/
inductive HostEvent where
  /-- One access of the host. -/
  | access (a : Access)
  /-- `WAIT`: read `STATUS` until `DONE` is set (R100). -/
  | wait
  /-- `MOVEOUT`: feed the result back as the next message (R100). -/
  | moveout
  /-- The host lets one engine step pass. -/
  | engineTurn
  /-- The platform's reset (spec/70_reset_and_hazards.md R250, R251). -/
  | reset
  deriving DecidableEq, Repr

/-- A value a host read returned: the first kind of observation of spec/00_scope.md R14. -/
inductive HostRead where
  | register (n : Nat) (v : Word)
  | byte (store : Store) (i : Nat) (v : Byte)
  deriving DecidableEq, Repr

/-- The complete state of one engine instance (R20), and three fields of the model's own at the end. -/
structure State where
  /-- `KEY`, 32 bytes (R21). -/
  key : Vector Byte 32
  /-- `IV`, 16 bytes (R22). -/
  iv : Block
  /-- `IBUF`, `BUFCAP` bytes (R23). -/
  ibuf : Memory
  /-- `OBUF`, `BUFCAP` bytes (R24). -/
  obuf : Memory
  /-- `CMD`, control register 0 (R31). -/
  cmd : Word
  /-- `ILEN`, control register 1 (R32). -/
  ilen : Word
  /-- `STATUS`, control register 2 (R33). -/
  status : Status
  /-- `OLEN`, control register 3 (R34). -/
  olen : Word
  /-- `CERR`, control register 4 (R35). -/
  cerr : Word
  /-- `PHASE` (R40). -/
  phase : Phase
  /-- `BLK` (R41). -/
  blk : Nat
  /-- `NBLK` (R42). -/
  nblk : Nat
  /-- `CHAIN` (R43). -/
  chain : Block
  /-- `WLEN` (R50). -/
  wlen : Nat
  /-- The model's own: the cipher-call trace, oldest first, an observation aid (spec/00_scope.md R14). -/
  trace : List CipherCall
  /-- The model's own: what host reads have returned, oldest first (spec/00_scope.md R14). -/
  reads : List HostRead
  /-- The model's own: the events from outside that are still to come, the next one first. -/
  pending : List HostEvent
  deriving DecidableEq, Repr

/-- The state after reset (R48; spec/70_reset_and_hazards.md R250): everything zero, `PHASE = IDLE`, the trace
empty, and no event from outside on its way. -/
def State.reset : State where
  key := Vector.replicate 32 0
  iv := Vector.replicate 16 0
  ibuf := ⟨[]⟩
  obuf := ⟨[]⟩
  cmd := 0
  ilen := 0
  status := ⟨false, false, .ok⟩
  olen := 0
  cerr := 0
  phase := .idle
  blk := 0
  nblk := 0
  chain := Vector.replicate 16 0
  wlen := 0
  trace := []
  reads := []
  pending := []

/-- The model's faults. The spec has none (spec/60_exceptions.md R231): each stands for a state that no run reaches,
is safe, and is excluded by the invariant `State.Consistent` of Safety.lean. -/
inductive Fault where
  /-- Raised by an engine step in a phase for which no rule R191 to R197 is enabled: an ENCRYPT in `LENCHECK` or
  `UNPAD`, a CHAIN step with `BLK >= NBLK`, an UNPAD step of no blocks, an illegal word beyond `DECODE`. Safe. -/
  | noEnabledRule
  /-- Raised by a CHAIN or UNPAD step whose block lies outside `IBUF` and `OBUF`; "every index these accesses use is
  in range" (spec/20_memory.md R70). Safe. -/
  | indexOutsideStore
  /-- Raised by a CHAIN step whose `KLEN` is not 16, 24 or 32, for which the cipher port has no request
  (spec/42_chain_engine.md R153). Safe. -/
  | keyOutsideDomain
  deriving DecidableEq, Repr

/-- The model's refusals. Every command has its meaning, so no step raises one. -/
inductive Refusal where
  /-- Would be raised by `exec` for an instruction without a meaning; no arm does. Safe. -/
  | notModelled (mnemonic : String)
  deriving DecidableEq, Repr

end Sys2Proof.Machine
end

