-- ==== Sys2Proof/Machine/Flags.lean ====
section
/-! DEFINITION. The fields of `STATUS`, the only flags the engine has, and the word a host read sees
(spec/10_state.md R33, spec/20_memory.md R64, spec/60_exceptions.md R220). -/

namespace Sys2Proof.Machine

/-- The number of a result code (R220). -/
def ResultCode.value : ResultCode → Nat
  | .ok => 0
  | .invalidParameters => 1
  | .invalidCiphertextLength => 2
  | .invalidPadding => 3
  | .underlyingCipherFailure => 4
  | .illegalCommand => 5
  | .capacityExceeded => 6

/-- `STATUS` from an accepted `CMD` write until completion: `BUSY = 1, DONE = 0, CODE = 0` (R190). -/
def Status.running : Status := ⟨true, false, .ok⟩

/-- `STATUS` after completion: `BUSY = 0, DONE = 1, CODE = code` (R197, R226). -/
def Status.completed (code : ResultCode) : Status := ⟨false, true, code⟩

/-- A one-bit field as a number. -/
def bitValue (b : Bool) : Nat := if b then 1 else 0

/-- The 32-bit word of `STATUS`: `zext_32(BUSY) + 2*zext_32(DONE) + 16*zext_32(CODE)` (R64). -/
def Status.word (t : Status) : Word :=
  BitVec.ofNat 32 (bitValue t.busy + 2 * bitValue t.done + 16 * t.code.value)

/-- Bit 1 of a word read from `STATUS`: `DONE`, which `WAIT` looks at (spec/30_encoding.md R100). -/
def doneBit (v : Word) : Bool := v.getLsbD 1

end Sys2Proof.Machine
end

