-- ==== Sys2Proof/Machine/Ops.lean ====
section
/-! DEFINITION. The named operations over the stores and the registers: reading and writing memory, the accepted
command write START (spec/43_mode_facade.md R190), the completion COMMIT (R197), and the FAIL action
(spec/60_exceptions.md R226), which is this hardware's taking of an exception and its return from it in one. -/

namespace Sys2Proof.Machine

/-! ### Byte memories -/

/-- What an index nothing has written reads as: the reset value of every byte of `IBUF` and `OBUF` (R48). -/
def unlistedByte : Byte := 0x00

/-- The byte at `a` in a list of cells. -/
def readCells : List Host.Cell → Nat → Byte
  | [], _ => unlistedByte
  | (b, w) :: rest, a => if a = b then w else readCells rest a

/-- A cell in front of `rest`, unless it holds what an unlisted index reads as. -/
def consCell (a : Nat) (v : Byte) (rest : List Host.Cell) : List Host.Cell :=
  if v = unlistedByte then rest else (a, v) :: rest

/-- `v` written at `a`, keeping the canonical form. -/
def writeCells : List Host.Cell → Nat → Byte → List Host.Cell
  | [], a, v => consCell a v []
  | (b, w) :: rest, a, v =>
    if a < b then consCell a v ((b, w) :: rest)
    else if a = b then consCell a v rest
    else (b, w) :: writeCells rest a v

/-- The memory whose every byte is `0x00`. -/
def Memory.empty : Memory := ⟨[]⟩

/-- The byte `S[a]`. -/
def Memory.read (m : Memory) (a : Nat) : Byte := readCells m.cells a

/-- `S[a] <- v`. -/
def Memory.write (m : Memory) (a : Nat) (v : Byte) : Memory := ⟨writeCells m.cells a v⟩

/-- `MemRead(S, a, n)`: the `n` bytes `S[a .. a+n)`, lowest index first (spec/00_scope.md R11). -/
def Memory.readBytes (m : Memory) (a n : Nat) : List Byte := (List.range n).map fun k => m.read (a + k)

/-- `MemWrite(S, a, len(bs), bs)` (spec/00_scope.md R11). -/
def Memory.writeBytes (m : Memory) (a : Nat) : List Byte → Memory
  | [] => m
  | v :: rest => (m.write a v).writeBytes (a + 1) rest

/-- `MemRead(S, a, 16)` as a block. -/
def Memory.readBlock (m : Memory) (a : Nat) : Block := Vector.ofFn fun j => m.read (a + j.val)

/-- `MemWrite(S, a, 16, b)`, the result block store (spec/41_block_segmenter.md R134). -/
def Memory.writeBlock (m : Memory) (a : Nat) (b : Block) : Memory := m.writeBytes a b.toList

/-- The canonical form: indices strictly rising, and no cell that holds what an unlisted index reads as. -/
abbrev Memory.wf (m : Memory) : Prop :=
  m.cells.Pairwise (fun c d => c.1 < d.1) ∧ ∀ c ∈ m.cells, c.2 ≠ unlistedByte

/-- Every listed index is below `n`: every index from `n` on reads `0x00`. -/
abbrev Memory.Below (n : Nat) (m : Memory) : Prop := ∀ c ∈ m.cells, c.1 < n

/-! ### Blocks -/

/-- `rep(16, 0x00)`. -/
def zeroBlock : Block := Vector.replicate 16 0x00

/-- `a XOR b`: the bitwise exclusive or of each pair of bytes, no lane touching another
(spec/42_chain_engine.md R150). -/
def xorBlock (a b : Block) : Block := Vector.ofFn fun j => a[j] ^^^ b[j]

/-! ### START, COMMIT, FAIL -/

/-- START: the accepted write of the command word `w`, in one indivisible action (R190). Every word starts the
sequencer, legal or not, and the previous result is gone from this point. -/
def start (w : Word) (s : State) : State :=
  { s with
    cmd := w
    status := .running
    olen := 0
    cerr := 0
    obuf := .empty
    blk := 0
    nblk := 0
    wlen := 0
    chain := zeroBlock
    phase := .decode }

/-- The FAIL action `fail(code, ce)` (R226): any partial output is discarded, the code and the wrapped error are
recorded, the hidden state is cleared and the engine is idle again. Nothing else changes. -/
def fail (code : ResultCode) (ce : CipherError) (s : State) : State :=
  { s with
    obuf := .empty
    olen := 0
    cerr := ce
    status := .completed code
    blk := 0
    nblk := 0
    wlen := 0
    chain := zeroBlock
    phase := .idle }

/-- The COMMIT step (R197): the result becomes visible, all at once. -/
def commit (s : State) : State :=
  { s with
    olen := BitVec.ofNat 32 s.wlen
    status := .completed .ok
    blk := 0
    nblk := 0
    wlen := 0
    chain := zeroBlock
    phase := .idle }

/-- `emit CipherCall(...)`: append one record to the trace (spec/00_scope.md R11). -/
def emit (c : CipherCall) (s : State) : State := { s with trace := s.trace ++ [c] }

/-- Reset (spec/70_reset_and_hazards.md R250, R251): every piece of the engine's state takes its reset value, and a
command in progress is abandoned. The records of the capability applications already made remain in the trace, and
what lies outside the engine (what the host has read, what is still to come) is not the engine's to reset. -/
def resetEngine (s : State) : State :=
  { State.reset with trace := s.trace, reads := s.reads, pending := s.pending }

end Sys2Proof.Machine
end

