-- ==== Sys2Proof/Machine/Operands.lean ====
section
/-! DEFINITION. The operands of a command: the key, the IV, the message and its blocks
(spec/30_encoding.md R92, R93; spec/41_block_segmenter.md R131, R133; spec/42_chain_engine.md R153). -/

namespace Sys2Proof.Machine

/-- `BLOCK_SIZE` (spec/00_scope.md R6). -/
def blockSize : Nat := 16

/-- Step 1 of both facade functions, on the claimed lengths (spec/43_mode_facade.md R192). -/
abbrev ValidParameters (klen ivlen : Nat) : Prop := ivlen = 16 ∧ ValidKeyLength klen

/-- The key operand `KEY[0..KLEN)`; there is one exactly when `KLEN` is valid (R92, R153). -/
def keyOperand (store : Vector Byte 32) (klen : Nat) : Option Key :=
  if h : ValidKeyLength klen then
    some
      { bytes := store.toList.take klen
        valid := by
          have hl : (store.toList.take klen).length = klen := by
            rcases h with h | h | h <;> simp [h]
          rw [hl]; exact h }
  else none

/-- The IV operand `IV[0..16)`; there is one exactly when `IVLEN` is 16 (R92). -/
def ivOperand (store : Block) (ivlen : Nat) : Option Block := if ivlen = 16 then some store else none

/-- The message length `ILEN` as a number. -/
def State.msgLen (s : State) : Nat := s.ilen.toNat

/-- The message operand `IBUF[0..ILEN)` (R93). -/
def State.message (s : State) : List Byte := s.ibuf.readBytes 0 s.msgLen

/-- `16 - r` with `r = len mod 16`: the pad length, in 1..16 (spec/40_padding_codec.md R114). -/
def padSize (len : Nat) : Nat := 16 - len % 16

/-- `PB(i)`, the plaintext block fetch with padding (R131). -/
def plaintextBlock (s : State) (i : Nat) : Block :=
  Vector.ofFn fun j =>
    if 16 * i + j.val < s.msgLen then s.ibuf.read (16 * i + j.val) else BitVec.ofNat 8 (padSize s.msgLen)

/-- `MemRead(IBUF, 16*i, 16)`, the ciphertext block fetch (R133). -/
def ciphertextBlock (s : State) (i : Nat) : Block := s.ibuf.readBlock (16 * i)

/-- The number of blocks of an ENCRYPT, `ILEN div 16 + 1` (spec/10_state.md R42). -/
def encryptBlocks (len : Nat) : Nat := len / 16 + 1

/-- The number of blocks of a DECRYPT, `ILEN div 16` (spec/10_state.md R42). -/
def decryptBlocks (len : Nat) : Nat := len / 16

end Sys2Proof.Machine
end

