-- ==== Sys2Proof/Machine/PaddingCodec.lean ====
section
/-! DEFINITION. The Padding Codec: `PAD`, `UNPAD`, `UNPAD16` (spec/40_padding_codec.md R110 to R115). -/

namespace Sys2Proof.Machine

/-- The four error kinds of the source; `UnderlyingCipherFailure` wraps the capability's error word
(spec/60_exceptions.md R220, spec/00_scope.md R12). -/
inductive ErrorKind where
  | invalidParameters
  | invalidCiphertextLength
  | invalidPadding
  | underlyingCipherFailure (ce : CipherError)
  deriving DecidableEq, Repr

/-- The result code of an error kind (R220). -/
def ErrorKind.code : ErrorKind → ResultCode
  | .invalidParameters => .invalidParameters
  | .invalidCiphertextLength => .invalidCiphertextLength
  | .invalidPadding => .invalidPadding
  | .underlyingCipherFailure _ => .underlyingCipherFailure

/-- What the failure leaves in `CERR` (R226): the wrapped error, or 0. -/
def ErrorKind.cerr : ErrorKind → CipherError
  | .underlyingCipherFailure ce => ce
  | _ => 0

/-- `PAD(chunk)` (R110). Its domain, `len(chunk) < 16`, is a precondition: the engine never forms another call
(spec/93_implementation_defined.md U8). -/
def pad (chunk : List Byte) (_h : chunk.length < 16) : Block :=
  Vector.ofFn fun j => (chunk[j.val]?).getD (BitVec.ofNat 8 (padSize chunk.length))

/-- `UNPAD(buf)`, the source's general function (R111). The engine applies `unpad16` only; see
spec/90_conflicts.md C2. -/
def unpad (buf : List Byte) : Except ErrorKind (List Byte) :=
  match buf.getLast? with
  | none => .error .invalidPadding
  | some last =>
    let n := last.toNat
    if buf.length % 16 ≠ 0 then .error .invalidPadding
    else if n = 0 ∨ n > buf.length then .error .invalidPadding
    else if ∃ b ∈ buf.drop (buf.length - n), b ≠ last then .error .invalidPadding
    else .ok (buf.take (buf.length - n))

/-- The pad length a last block names, where its padding is well formed: `n = last[15]` with `1 <= n <= 16` and the
last `n` bytes equal to `n`, all sixteen lanes compared at once (R112, R115). -/
def padLength (last : Block) : Option Nat :=
  let n := last[15].toNat
  if n = 0 ∨ n > 16 ∨ ∃ j : Fin 16, 16 - n ≤ j.val ∧ last[j] ≠ last[15] then none else some n

/-- `UNPAD16(last)` (R112). -/
def unpad16 (last : Block) : Except ErrorKind (List Byte) :=
  match padLength last with
  | none => .error .invalidPadding
  | some n => .ok (last.toList.take (16 - n))

end Sys2Proof.Machine
end

