-- ==== Sys2Proof/Machine/Segmenter.lean ====
section
/-! DEFINITION. The Block Segmenter: `SPLIT`, `CTSPLIT`, `CONCAT`, `JOIN` (spec/41_block_segmenter.md R130 to R135).
`PB` (R131) is `plaintextBlock` of Machine/Operands.lean. -/

namespace Sys2Proof.Machine

/-- The sixteen bytes `buf[16k .. 16k+16)` as a block; used where they exist. -/
def fullBlock (buf : List Byte) (k : Nat) : Block := Vector.ofFn fun j => (buf[16 * k + j.val]?).getD 0

/-- The final chunk `buf[16q .. n)`, `q = n div 16`. -/
def finalChunk (buf : List Byte) : List Byte := buf.drop (16 * (buf.length / 16))

theorem finalChunk_length (buf : List Byte) : (finalChunk buf).length = buf.length % 16 := by
  simp only [finalChunk, List.length_drop]; omega

theorem finalChunk_short (buf : List Byte) : (finalChunk buf).length < 16 := by
  rw [finalChunk_length]; omega

/-- `SPLIT(buf)`: the full-size chunks, then the final chunk padded (R130). -/
def split (buf : List Byte) : List Block :=
  (List.range (buf.length / 16)).map (fullBlock buf) ++ [pad (finalChunk buf) (finalChunk_short buf)]

/-- `CTSPLIT(buf)`, the exact split (R133); its domain is `len(buf)` a positive multiple of 16, which the facade has
checked. -/
def ctsplit (buf : List Byte) : List Block := (List.range (buf.length / 16)).map (fullBlock buf)

/-- `CONCAT(blocks)` (R134). -/
def concat (blocks : List Block) : List Byte := blocks.flatMap fun b => b.toList

/-- `JOIN(blocks)`: every block but the last verbatim, the last one unpadded (R132). Its domain, a non-empty list, is a
precondition (spec/93_implementation_defined.md U8). -/
def join (blocks : List Block) (h : blocks ≠ []) : Except ErrorKind (List Byte) :=
  match unpad16 (blocks.getLast h) with
  | .error e => .error e
  | .ok tail => .ok (concat blocks.dropLast ++ tail)

end Sys2Proof.Machine
end

