-- ==== Sys2Proof/Machine/ChainEngine.lean ====
section
/-! DEFINITION. The CBC Chain Engine: `ENCSTEP`, `DECSTEP`, `ENCCHAIN`, `DECCHAIN`
(spec/42_chain_engine.md R152 to R160). -/

namespace Sys2Proof.Machine

/-- What a chain step answers: `Ok(out, state')` or `Err(UnderlyingCipherFailure, ce)` (R154, R155). -/
inductive ChainStep where
  | ok (out next : Block)
  | err (ce : CipherError)
  deriving DecidableEq, Repr

/-- `ENCSTEP(key, state, b)`, XOR-then-cipher, with the record it emits; the next state is the ciphertext block just
produced (R154). -/
def encStep (P : Platform) (key : Key) (state b : Block) : CipherCall × ChainStep :=
  let x := xorBlock b state
  let r := P.cipherEnc key x
  (⟨.enc, key, x, r⟩,
    match r with
    | .ok e => .ok e e
    | .err ce => .err ce)

/-- `DECSTEP(key, state, c)`, cipher-then-XOR, with the record it emits; the next state is the raw ciphertext block just
consumed (R155). -/
def decStep (P : Platform) (key : Key) (state c : Block) : CipherCall × ChainStep :=
  let r := P.cipherDec key c
  (⟨.dec, key, c, r⟩,
    match r with
    | .ok d => .ok (xorBlock d state) c
    | .err ce => .err ce)

/-- A chain over a list of blocks, in order, from a chaining state, short-circuiting at the first failure; with the
records of the requests made, in order (R156, R157, R159). -/
def runChain (step : Block → Block → CipherCall × ChainStep) :
    Block → List Block → List CipherCall × Except CipherError (List Block)
  | _, [] => ([], .ok [])
  | state, b :: rest =>
    match step state b with
    | (c, .err ce) => ([c], .error ce)
    | (c, .ok out next) =>
      match runChain step next rest with
      | (calls, .error ce) => (c :: calls, .error ce)
      | (calls, .ok outs) => (c :: calls, .ok (out :: outs))

/-- `ENCCHAIN(key, iv, blocks)` (R156). -/
def encChain (P : Platform) (key : Key) (iv : Block) (blocks : List Block) :
    List CipherCall × Except CipherError (List Block) :=
  runChain (encStep P key) iv blocks

/-- `DECCHAIN(key, iv, blocks)` (R157). -/
def decChain (P : Platform) (key : Key) (iv : Block) (blocks : List Block) :
    List CipherCall × Except CipherError (List Block) :=
  runChain (decStep P key) iv blocks

/-- A chain that answers `Ok` emits exactly as many blocks as it was given (R156). -/
theorem runChain_ok_length {step : Block → Block → CipherCall × ChainStep} {blocks : List Block} :
    ∀ {state : Block} {outs : List Block}, (runChain step state blocks).2 = .ok outs → outs.length = blocks.length := by
  induction blocks with
  | nil => intro state outs h; simp [runChain] at h; simp [← h]
  | cons b rest ih =>
    intro state outs h
    unfold runChain at h
    split at h
    · simp at h
    · split at h
      · simp at h
      · rename_i hr
        simp only [Except.ok.injEq] at h
        subst h
        simp [ih (by rw [hr])]

/-- On a ciphertext of an admitted length the decrypt chain never answers with the empty list, so `JOIN` stays in its
domain (R132). -/
theorem decChain_ctsplit_ne_nil (P : Platform) (key : Key) (iv : Block) {buf : List Byte}
    (h : ¬(buf.length % 16 ≠ 0 ∨ buf.length < 16)) :
    ∀ blocks, (decChain P key iv (ctsplit buf)).2 = .ok blocks → blocks ≠ [] := by
  intro blocks hb he
  have hl := runChain_ok_length hb
  simp only [he, ctsplit, List.length_nil, List.length_map, List.length_range] at hl
  omega

end Sys2Proof.Machine
end

