-- ==== Sys2Proof/Machine/Facade.lean ====
section
/-! DEFINITION. The Mode Facade's big-step functions `Encrypt` and `Decrypt` (spec/43_mode_facade.md R181 to R183), and
the completed state a result leaves (R199). An operand is present exactly when its claimed length is valid, so step 1
of both functions is the match on the two options. -/

namespace Sys2Proof.Machine

/-- `Encrypt(plaintext, key, iv)`, with the capability applications it makes, in order (R181). -/
def facadeEncrypt (P : Platform) (plaintext : List Byte) (key : Option Key) (iv : Option Block) :
    List CipherCall × Except ErrorKind (List Byte) :=
  match key, iv with
  | some k, some v =>
    match encChain P k v (split plaintext) with
    | (calls, .error ce) => (calls, .error (.underlyingCipherFailure ce))
    | (calls, .ok eblocks) => (calls, .ok (concat eblocks))
  | _, _ => ([], .error .invalidParameters)

/-- Steps 4 to 6 of `Decrypt` on what the decrypt chain answered: a failed request is propagated, else `JOIN`, whose
domain is the non-empty lists. -/
def joinPlaintext (answer : List CipherCall × Except CipherError (List Block))
    (h : ∀ blocks, answer.2 = .ok blocks → blocks ≠ []) : List CipherCall × Except ErrorKind (List Byte) :=
  match answer, h with
  | (calls, .error ce), _ => (calls, .error (.underlyingCipherFailure ce))
  | (calls, .ok pblocks), h => (calls, join pblocks (h pblocks rfl))

/-- `Decrypt(ciphertext, key, iv)`, with the capability applications it makes, in order (R182). -/
def facadeDecrypt (P : Platform) (ciphertext : List Byte) (key : Option Key) (iv : Option Block) :
    List CipherCall × Except ErrorKind (List Byte) :=
  match key, iv with
  | some k, some v =>
    if h : ciphertext.length % 16 ≠ 0 ∨ ciphertext.length < 16 then ([], .error .invalidCiphertextLength)
    else joinPlaintext (decChain P k v (ctsplit ciphertext)) (decChain_ctsplit_ne_nil P k v h)
  | _, _ => ([], .error .invalidParameters)

/-- The big-step result of a command on the operands a state holds (spec/30_encoding.md R92, R93). -/
def facadeResult (P : Platform) (i : Instr) (s : State) : List CipherCall × Except ErrorKind (List Byte) :=
  match i with
  | .encrypt klen ivlen => facadeEncrypt P s.message (keyOperand s.key klen) (ivOperand s.iv ivlen)
  | .decrypt klen ivlen => facadeDecrypt P s.message (keyOperand s.key klen) (ivOperand s.iv ivlen)

/-- `Ok(out)` as the state shows it: code 0, `OLEN = len(out)`, `OBUF[0..OLEN) = out` and zero beyond, the hidden state
cleared (R199, R197). -/
def publish (out : List Byte) (s : State) : State :=
  { s with
    obuf := Memory.empty.writeBytes 0 out
    olen := BitVec.ofNat 32 out.length
    cerr := 0
    status := .completed .ok
    blk := 0
    nblk := 0
    wlen := 0
    chain := zeroBlock
    phase := .idle }

/-- The state in which a command that made the given applications and gave the given result ends (R199). -/
def finish (result : List CipherCall × Except ErrorKind (List Byte)) (s : State) : State :=
  let t : State := { s with trace := s.trace ++ result.1 }
  match result.2 with
  | .ok out => publish out t
  | .error e => fail e.code e.cerr t

end Sys2Proof.Machine
end

