-- ==== Sys2Proof/Machine/Decrypt.lean ====
section
/-! DEFINITION. The meaning of DECRYPT: one engine step of the command (spec/43_mode_facade.md R190 to R193, R195 to R197,
R201). -/

namespace Sys2Proof.Machine

/-- DECODE step of a legal DECRYPT word (R191): the message must fit `IBUF`. -/
def decryptDecode (P : Platform) (s : State) : State :=
  if P.bufcap < s.msgLen then fail .capacityExceeded 0 s else { s with phase := .validate }

/-- VALIDATE step of a DECRYPT (R192). -/
def decryptValidate (klen ivlen : Nat) (s : State) : State :=
  if ValidParameters klen ivlen then { s with phase := .lencheck } else fail .invalidParameters 0 s

/-- LENCHECK step (R193), with the load of `CHAIN` from `IV` (spec/42_chain_engine.md R161). -/
def decryptLencheck (s : State) : State :=
  if s.msgLen % 16 ≠ 0 ∨ s.msgLen < 16 then fail .invalidCiphertextLength 0 s
  else { s with nblk := decryptBlocks s.msgLen, chain := s.iv, phase := .chain }

/-- What a successful DECSTEP for block `BLK` leaves (R195). -/
def decryptStore (p next : Block) (s : State) : State :=
  if s.blk + 1 = s.nblk then
    { s with
      obuf := s.obuf.writeBlock (16 * s.blk) p, chain := next, blk := s.blk + 1, phase := .unpad }
  else
    { s with obuf := s.obuf.writeBlock (16 * s.blk) p, chain := next, blk := s.blk + 1 }

/-- The DECSTEP a CHAIN step applies, on ciphertext block `BLK` (R195). -/
def decryptRequest (P : Platform) (key : Key) (s : State) : State :=
  match decStep P key s.chain (ciphertextBlock s s.blk) with
  | (c, .ok p next) => decryptStore p next (emit c s)
  | (c, .err ce) => fail .underlyingCipherFailure ce (emit c s)

/-- CHAIN step of DECRYPT, enabled when `BLK < NBLK` (R195). -/
def decryptChain (P : Platform) (klen : Nat) (s : State) : Host.Outcome State Fault Refusal :=
  if s.nblk ≤ s.blk then .fault .noEnabledRule
  else if P.bufcap < 16 * s.blk + 16 then .fault .indexOutsideStore
  else
    match keyOperand s.key klen with
    | none => .fault .keyOutsideDomain
    | some key => .next (decryptRequest P key s)

/-- Where the last result block stands while `PHASE = UNPAD`: index `16*(NBLK-1)` of `OBUF` (R196). -/
def lastBlock (s : State) : Block := s.obuf.readBlock (16 * (s.nblk - 1))

/-- The effect of the UNPAD step on a last block (R196): bad padding fails, good padding is stripped to zero. -/
def unpadLast (s : State) : State :=
  match padLength (lastBlock s) with
  | none => fail .invalidPadding 0 s
  | some n =>
    { s with
      obuf := s.obuf.writeBytes (16 * s.nblk - n) (List.replicate n 0x00)
      wlen := 16 * s.nblk - n
      phase := .commit }

/-- UNPAD step (R196); there is a last block when `NBLK >= 1`. -/
def decryptUnpad (P : Platform) (s : State) : Host.Outcome State Fault Refusal :=
  if s.nblk = 0 then .fault .noEnabledRule
  else if P.bufcap < 16 * s.nblk then .fault .indexOutsideStore
  else .next (unpadLast s)

/-- One engine step of a DECRYPT; an idle engine does nothing (spec/60_exceptions.md R237). -/
def decryptStep (P : Platform) (klen ivlen : Nat) (s : State) : Host.Outcome State Fault Refusal :=
  match s.phase with
  | .idle => .next s
  | .decode => .next (decryptDecode P s)
  | .validate => .next (decryptValidate klen ivlen s)
  | .lencheck => .next (decryptLencheck s)
  | .chain => decryptChain P klen s
  | .unpad => decryptUnpad P s
  | .commit => .next (commit s)

/-- The meaning of DECRYPT (R201). -/
def execDecrypt (klen ivlen : Nat) (s : State) : Host.Outcome State Fault Refusal :=
  decryptStep Config.platform klen ivlen s

end Sys2Proof.Machine
end

