-- ==== Sys2Proof/Machine/Encrypt.lean ====
section
/-! DEFINITION. The meaning of ENCRYPT: one engine step of the command (spec/43_mode_facade.md R190 to R192, R194, R197,
R200). -/

namespace Sys2Proof.Machine

/-- DECODE step of a legal ENCRYPT word (R191): the result, `16 * (ILEN div 16 + 1)` bytes, must fit `OBUF`. -/
def encryptDecode (P : Platform) (s : State) : State :=
  if P.bufcap ≤ s.msgLen then fail .capacityExceeded 0 s else { s with phase := .validate }

/-- VALIDATE step of an ENCRYPT (R192), with the load of `CHAIN` from `IV` (spec/42_chain_engine.md R161). -/
def encryptValidate (klen ivlen : Nat) (s : State) : State :=
  if ValidParameters klen ivlen then
    { s with nblk := encryptBlocks s.msgLen, chain := s.iv, phase := .chain }
  else fail .invalidParameters 0 s

/-- What a successful ENCSTEP for block `BLK` leaves: the block stored, the state advanced, and after the last block the
result length set (R194). -/
def encryptStore (e next : Block) (s : State) : State :=
  if s.blk + 1 = s.nblk then
    { s with
      obuf := s.obuf.writeBlock (16 * s.blk) e, chain := next, blk := s.blk + 1
      wlen := 16 * s.nblk, phase := .commit }
  else
    { s with obuf := s.obuf.writeBlock (16 * s.blk) e, chain := next, blk := s.blk + 1 }

/-- The ENCSTEP a CHAIN step applies, on block `PB(BLK)` (R194). -/
def encryptRequest (P : Platform) (key : Key) (s : State) : State :=
  match encStep P key s.chain (plaintextBlock s s.blk) with
  | (c, .ok e next) => encryptStore e next (emit c s)
  | (c, .err ce) => fail .underlyingCipherFailure ce (emit c s)

/-- CHAIN step of ENCRYPT, enabled when `BLK < NBLK` (R194). -/
def encryptChain (P : Platform) (klen : Nat) (s : State) : Host.Outcome State Fault Refusal :=
  if s.nblk ≤ s.blk then .fault .noEnabledRule
  else if P.bufcap < 16 * s.blk + 16 then .fault .indexOutsideStore
  else
    match keyOperand s.key klen with
    | none => .fault .keyOutsideDomain
    | some key => .next (encryptRequest P key s)

/-- One engine step of an ENCRYPT; an idle engine does nothing (spec/60_exceptions.md R237). -/
def encryptStep (P : Platform) (klen ivlen : Nat) (s : State) : Host.Outcome State Fault Refusal :=
  match s.phase with
  | .idle => .next s
  | .decode => .next (encryptDecode P s)
  | .validate => .next (encryptValidate klen ivlen s)
  | .lencheck => .fault .noEnabledRule
  | .chain => encryptChain P klen s
  | .unpad => .fault .noEnabledRule
  | .commit => .next (commit s)

/-- The meaning of ENCRYPT (R200). -/
def execEncrypt (klen ivlen : Nat) (s : State) : Host.Outcome State Fault Refusal :=
  encryptStep Config.platform klen ivlen s

end Sys2Proof.Machine
end

