-- ==== Sys2Proof/Machine/Dispatch.lean ====
section
/-! DEFINITION. One arm per command (spec/43_mode_facade.md R200, R201, R209): one engine step of it. -/

namespace Sys2Proof.Machine

def exec (i : Instr) (s : State) : Host.Outcome State Fault Refusal :=
  match i with
  | .encrypt klen ivlen => Sys2Proof.Machine.execEncrypt klen ivlen s
  | .decrypt klen ivlen => Sys2Proof.Machine.execDecrypt klen ivlen s

end Sys2Proof.Machine
end

