-- ==== Sys2Proof/WellFormed.lean ====
section
/-! DEFINITION. Which commands format `C` can hold (spec/30_encoding.md R90, R100). -/

namespace Sys2Proof

/-- A length field is 8 bits wide (R90), so it holds 0 to 255. -/
def fieldFits (n : Nat) : Bool := decide (n ≤ 255)

/-- "`klen` and `ivlen` must be in 0..255 for the expansion to be a format-`C` word" (R100). -/
def Instr.wellFormed : Instr → Bool
  | .encrypt klen ivlen => fieldFits klen && fieldFits ivlen
  | .decrypt klen ivlen => fieldFits klen && fieldFits ivlen

end Sys2Proof
end

