-- ==== Sys2Proof/Decode.lean ====
section
/-! DEFINITION. The decoder and the encoder of command words (spec/30_encoding.md R90 to R96, R100, R101). -/

namespace Sys2Proof

/-- The field `OP = w[7:0]` (R90). -/
def opField (w : Word) : BitVec 8 := w.extractLsb' 0 8

/-- The field `KLEN = w[15:8]`, an unsigned integer (R90, R92). -/
def klenField (w : Word) : Nat := (w.extractLsb' 8 8).toNat

/-- The field `IVLEN = w[23:16]`, an unsigned integer (R90, R92). -/
def ivlenField (w : Word) : Nat := (w.extractLsb' 16 8).toNat

/-- The field `RSVD = w[31:24]` (R90). -/
def rsvdField (w : Word) : BitVec 8 := w.extractLsb' 24 8

/-- Why a word is `Illegal` (R95). -/
inductive Illegal where
  /-- `RSVD` is not `0x00`. -/
  | reservedNotZero (rsvd : BitVec 8)
  /-- `RSVD` is `0x00` and `OP` is neither `0x01` nor `0x02`. -/
  | unknownOperation (op : BitVec 8)
  deriving DecidableEq, Repr

/-- The total decoder of R94. -/
def decode (w : Word) : Except Illegal Instr :=
  if rsvdField w ≠ 0x00 then .error (.reservedNotZero (rsvdField w))
  else if opField w = 0x01 then .ok (.encrypt (klenField w) (ivlenField w))
  else if opField w = 0x02 then .ok (.decrypt (klenField w) (ivlenField w))
  else .error (.unknownOperation (opField w))

/-- The operation code of a command (R91). -/
def opcode : Instr → Nat
  | .encrypt _ _ => 0x01
  | .decrypt _ _ => 0x02

/-- The claimed key length of a command. -/
def Instr.klen : Instr → Nat
  | .encrypt klen _ => klen
  | .decrypt klen _ => klen

/-- The claimed IV length of a command. -/
def Instr.ivlen : Instr → Nat
  | .encrypt _ ivlen => ivlen
  | .decrypt _ ivlen => ivlen

/-- The command word of a command: `OP + 256*klen + 65536*ivlen` (R100). DESIGN CHOICE
(notes/assumptions/20.md): of a command that is not well formed it is the low 32 bits of that sum. -/
def encode (i : Instr) : Word := BitVec.ofNat 32 (opcode i + 256 * i.klen + 65536 * i.ivlen)

/-- The `mask` of both rows of the opcode table: it covers `OP` and `RSVD` (R91). -/
def tableMask : Word := 0xFF0000FF

/-- The `match` of a command's row of the opcode table (R91). -/
def tableMatch : Instr → Word
  | .encrypt _ _ => 0x00000001
  | .decrypt _ _ => 0x00000002

/-- A command word of `nbits` bits, every bit above them 0. A command word is one 32-bit register value, so there is
no order of words or bytes to choose (R61, R90). -/
def tableWord (nbits w : Nat) : Word := BitVec.ofNat 32 (w % 2 ^ nbits)

/-- The command the decoder reads from a table word. -/
def decodeTableWord (nbits w : Nat) : Option Instr :=
  match decode (tableWord nbits w) with
  | .ok i => some i
  | .error _ => none

end Sys2Proof
end

