-- ==== Sys2Proof/Machine/HostPort.lean ====
section
/-! DEFINITION. The host's side: the four access primitives (spec/20_memory.md R63 to R68), the pseudo-instructions
(spec/30_encoding.md R99, R100), and the events from outside that a step takes. -/

namespace Sys2Proof.Machine

/-! ### The access primitives -/

/-- `HostWriteReg(n, v)` (R63): locked while busy; a write of `CMD` starts a command. -/
def hostWriteReg (n : Nat) (v : Word) (s : State) : State :=
  if s.status.busy then s
  else
    match n with
    | 0 => start v s
    | 1 => { s with ilen := v }
    | _ => s

/-- `HostReadReg(n)` (R64); an undefined register number reads 0 (spec/10_state.md R36). -/
def hostReadReg (n : Nat) (s : State) : Word :=
  match n with
  | 0 => s.cmd
  | 1 => s.ilen
  | 2 => s.status.word
  | 3 => s.olen
  | 4 => s.cerr
  | _ => 0

/-- The size of a store in bytes; `cap` is `BUFCAP` (R68). -/
def storeSize (cap : Nat) : Store → Nat
  | .key => 32
  | .iv => 16
  | .ibuf => cap
  | .obuf => cap

/-- The byte `S[i]`, `i` in range. -/
def State.storeByte (s : State) (store : Store) (i : Nat) : Byte :=
  match store with
  | .key => (s.key[i]?).getD 0
  | .iv => (s.iv[i]?).getD 0
  | .ibuf => s.ibuf.read i
  | .obuf => s.obuf.read i

/-- `HostWriteByte(S, i, v)` (R65): locked while busy; `OBUF` is read only; out of range is ignored (R68). -/
def hostWriteByte (cap : Nat) (store : Store) (i : Nat) (v : Byte) (s : State) : State :=
  if s.status.busy then s
  else if storeSize cap store ≤ i then s
  else
    match store with
    | .obuf => s
    | .key => { s with key := s.key.setIfInBounds i v }
    | .iv => { s with iv := s.iv.setIfInBounds i v }
    | .ibuf => { s with ibuf := s.ibuf.write i v }

/-- `HostReadByte(S, i)` (R66): out of range reads `0x00` (R68), and so does `OBUF` while busy (the read gate). -/
def hostReadByte (cap : Nat) (store : Store) (i : Nat) (s : State) : Byte :=
  if storeSize cap store ≤ i then 0x00
  else if store = .obuf ∧ s.status.busy then 0x00
  else s.storeByte store i

/-- The port an access goes to, which `BUSMAP` places on a bus (spec/00_scope.md R7). -/
def Access.port : Access → Port
  | .writeReg n _ => .register n
  | .readReg n => .register n
  | .writeByte store i _ => .byte store i
  | .readByte store i => .byte store i

/-- Record what a host read returned (spec/00_scope.md R14). -/
def recordRead (r : HostRead) (s : State) : State := { s with reads := s.reads ++ [r] }

/-- One host access: a read is recorded and changes nothing else (R69). -/
def performAccess (cap : Nat) (a : Access) (s : State) : State :=
  match a with
  | .writeReg n v => hostWriteReg n v s
  | .readReg n => recordRead (.register n (hostReadReg n s)) s
  | .writeByte store i v => hostWriteByte cap store i v s
  | .readByte store i => recordRead (.byte store i (hostReadByte cap store i s)) s

/-! ### Host programs -/

/-- The statements of the host's notation (R99, R100). The lists and lengths are unbounded; what a statement outside the
domain R100 gives it expands to is the model's choice (notes/assumptions/20.md). -/
inductive Pseudo where
  /-- One of `WR`, `RD`, `WRB`, `RDB`. -/
  | primitive (a : Access)
  /-- `ENCRYPT klen, ivlen`. -/
  | encrypt (klen ivlen : Nat)
  /-- `DECRYPT klen, ivlen`. -/
  | decrypt (klen ivlen : Nat)
  /-- `LOADKEY b0 b1 ... b(n-1)`. -/
  | loadKey (bytes : List Byte)
  /-- `LOADIV b0 ... b15`. -/
  | loadIv (bytes : List Byte)
  /-- `LOADMSG b0 ... b(n-1)`. -/
  | loadMsg (bytes : List Byte)
  /-- `WAIT`. -/
  | wait
  /-- `READOUT n`. -/
  | readout (n : Nat)
  /-- `MOVEOUT`. -/
  | moveout
  deriving DecidableEq, Repr

/-- `WRB S[i], b0; WRB S[i+1], b1; ...`. -/
def loadBytes (store : Store) : Nat → List Byte → List HostEvent
  | _, [] => []
  | i, b :: rest => .access (.writeByte store i b) :: loadBytes store (i + 1) rest

/-- The expansion of a statement into accesses (R100). `WAIT` and `MOVEOUT`, whose accesses depend on what is read, stay
events of their own, which the step expands when they come up. DESIGN CHOICE (notes/assumptions/20.md): R100 gives `LOADKEY`
for at most 32 bytes, `LOADIV` for exactly 16 and `klen`, `ivlen` in 0..255; outside these the expansion is the same
sequence of accesses, and `encode` keeps the low 32 bits of the sum. -/
def Pseudo.expand : Pseudo → List HostEvent
  | .primitive a => [.access a]
  | .encrypt klen ivlen => [.access (.writeReg 0 (encode (.encrypt klen ivlen)))]
  | .decrypt klen ivlen => [.access (.writeReg 0 (encode (.decrypt klen ivlen)))]
  | .loadKey bytes => loadBytes .key 0 bytes
  | .loadIv bytes => loadBytes .iv 0 bytes
  | .loadMsg bytes => loadBytes .ibuf 0 bytes ++ [.access (.writeReg 1 (BitVec.ofNat 32 bytes.length))]
  | .wait => [.wait]
  | .readout n => (List.range n).map fun i => .access (.readByte .obuf i)
  | .moveout => [.moveout]

/-- The events of a host program (spec/95_test_vectors.md section 3 writes such programs). -/
def hostProgram (statements : List Pseudo) : List HostEvent := statements.flatMap Pseudo.expand

/-- One round of `WAIT` (R100): `RD STATUS`; when `DONE` is set the loop ends, else one engine turn passes before the
next round. -/
def waitRound (rest : List HostEvent) (s : State) : State :=
  let v := hostReadReg 2 s
  { recordRead (.register 2 v) s with
    pending := if doneBit v then rest else .engineTurn :: .wait :: rest }

/-- The accesses of `MOVEOUT` after its `RD OLEN -> n`: `RDB OBUF[i] -> b`, `WRB IBUF[i], b` for `i` in `0..n-1`, then
`WR ILEN, n` (R100). Between them nothing changes `OBUF`, so each `b` is the byte read where `MOVEOUT` begins. -/
def moveoutAccesses (cap : Nat) (s : State) : List Access :=
  let n := (hostReadReg 3 s).toNat
  (List.range n).flatMap (fun i => [.readByte .obuf i, .writeByte .ibuf i (hostReadByte cap .obuf i s)])
    ++ [.writeReg 1 (BitVec.ofNat 32 n)]

/-- `MOVEOUT` begins: `RD OLEN`, and its other accesses come next. -/
def beginMoveout (cap : Nat) (rest : List HostEvent) (s : State) : State :=
  { recordRead (.register 3 (hostReadReg 3 s)) s with
    pending := (moveoutAccesses cap s).map HostEvent.access ++ rest }

/-- One step of the whole: the next event from outside, or, when none is on its way, an engine step. `engine` is the
engine's step and `cap` is `BUFCAP`. -/
def advance (cap : Nat) (engine : State → Host.Outcome State Fault Refusal) (s : State) :
    Host.Outcome State Fault Refusal :=
  match s.pending with
  | [] => engine s
  | .engineTurn :: rest => engine { s with pending := rest }
  | .access a :: rest => .next (performAccess cap a { s with pending := rest })
  | .wait :: rest => .next (waitRound rest s)
  | .moveout :: rest => .next (beginMoveout cap rest s)
  | .reset :: rest => .next (resetEngine { s with pending := rest })

/-- The events that let the engine take the very next step: an engine turn goes before whatever is on its way. -/
def engineFirst : List HostEvent → List HostEvent
  | [] => []
  | e :: rest => .engineTurn :: e :: rest

/-- A command word placed where the engine finds its next command: latched in `CMD` by START, the engine's step next. -/
def placeCommand (w : Word) (s : State) : State := { start w s with pending := engineFirst s.pending }

end Sys2Proof.Machine
end

