-- ==== Sys2Proof/Machine/Sequencer.lean ====
section
/-! DEFINITION. The engine's step: the latched command word is decoded and the command's step taken
(spec/43_mode_facade.md section 3). -/

namespace Sys2Proof.Machine

/-- One engine step while `CMD` holds an illegal word: the DECODE step fails it (R191, R225); COMMIT is enabled by its
phase alone (R197); no other rule is enabled. -/
def illegalStep (s : State) : Host.Outcome State Fault Refusal :=
  match s.phase with
  | .idle => .next s
  | .decode => .next (fail .illegalCommand 0 s)
  | .validate => .fault .noEnabledRule
  | .lencheck => .fault .noEnabledRule
  | .chain => .fault .noEnabledRule
  | .unpad => .fault .noEnabledRule
  | .commit => .next (commit s)

/-- One engine step, `run` being the meaning of a command: nothing while idle, else the step of the command whose word
is latched in `CMD`. -/
def engineStep (run : Instr → State → Host.Outcome State Fault Refusal) (s : State) :
    Host.Outcome State Fault Refusal :=
  match s.phase with
  | .idle => .next s
  | _ =>
    match decode s.cmd with
    | .ok i => run i s
    | .error _ => illegalStep s

/-- The meaning of a command on a platform given as an argument; `exec` is it on `Config.platform`. Not used by the
machine itself: it lets the machine be evaluated with a stub cipher (spec/95_test_vectors.md section 0). -/
def execOn (P : Platform) (i : Instr) (s : State) : Host.Outcome State Fault Refusal :=
  match i with
  | .encrypt klen ivlen => encryptStep P klen ivlen s
  | .decrypt klen ivlen => decryptStep P klen ivlen s

/-- One step of the machine on a platform given as an argument; `step` is it on `Config.platform`. -/
def stepOn (P : Platform) (s : State) : Host.Outcome State Fault Refusal :=
  advance P.bufcap (engineStep (execOn P)) s

end Sys2Proof.Machine
end

