-- ==== Sys2Proof/Machine/Step.lean ====
section
/-! DEFINITION. One step of the machine: the next event from outside or the engine's next step
(spec/00_scope.md R13, spec/20_memory.md R73). -/

namespace Sys2Proof.Machine

/-- One step. -/
def step (s : State) : Host.Outcome State Fault Refusal :=
  advance Config.platform.bufcap (engineStep exec) s

/-- `s` with the command word `w` latched in `CMD` as an accepted write leaves it, so that the very next step is that
command's first engine step. -/
def State.withFetchWord (s : State) (nbits w : Nat) : State := placeCommand (tableWord nbits w) s

end Sys2Proof.Machine
end

