-- ==== Sys2Proof/Safety.lean ====
section
/-! DEFINITION. The terms claims use: the consistent states (an invariant of the machine, from spec/10_state.md R24, R33
to R35, R40 to R44, R50 and spec/42_chain_engine.md R158), runs of several steps, the machine on a given platform, the
step counts of spec/43_mode_facade.md R198, and agreement of operands (spec/10_state.md R45). -/

namespace Sys2Proof.Machine

/-! ### Consistent states -/

/-- The capacity test of the DECODE step, passed (spec/43_mode_facade.md R191). -/
def Admitted (cap : Nat) (i : Instr) (len : Nat) : Prop :=
  match i with
  | .encrypt _ _ => len < cap
  | .decrypt _ _ => len ≤ cap

/-- The length check of the LENCHECK step, passed; an ENCRYPT has none (R193). -/
def LengthChecked (i : Instr) (len : Nat) : Prop :=
  match i with
  | .encrypt _ _ => True
  | .decrypt _ _ => len % 16 = 0 ∧ 16 ≤ len

/-- The number of blocks of a command (spec/10_state.md R42). -/
def blocksOf (i : Instr) (len : Nat) : Nat :=
  match i with
  | .encrypt _ _ => encryptBlocks len
  | .decrypt _ _ => decryptBlocks len

/-- The ciphertext block `k` of a command: the one produced for an ENCRYPT, the one consumed for a DECRYPT. -/
def ciphertextOf (i : Instr) (s : State) (k : Nat) : Block :=
  match i with
  | .encrypt _ _ => s.obuf.readBlock (16 * k)
  | .decrypt _ _ => ciphertextBlock s k

/-- "`CHAIN` is either the IV (before the first step) or a ciphertext block: in ENCRYPT the one just produced, in
DECRYPT the one just consumed" (spec/42_chain_engine.md R158). -/
def ChainHolds (i : Instr) (s : State) : Prop :=
  s.chain = if s.blk = 0 then s.iv else ciphertextOf i s (s.blk - 1)

/-- The result length a command is about to publish (spec/10_state.md R34, R50). -/
def ResultLength (i : Instr) (s : State) : Prop :=
  match i with
  | .encrypt _ _ => s.wlen = 16 * s.nblk
  | .decrypt _ _ => 16 * s.nblk ≤ s.wlen + 16 ∧ s.wlen < 16 * s.nblk

/-- Nothing is published while a command is in progress (spec/20_memory.md R64). -/
def NothingPublished (s : State) : Prop := s.olen = 0 ∧ s.cerr = 0

/-- The state START leaves and the checks keep (spec/43_mode_facade.md R190). -/
def Cleared (s : State) : Prop :=
  NothingPublished s ∧ s.obuf = .empty ∧ s.blk = 0 ∧ s.nblk = 0 ∧ s.wlen = 0 ∧ s.chain = zeroBlock

/-- A command that has passed the checks up to and including VALIDATE. -/
def Validated (cap : Nat) (i : Instr) (s : State) : Prop :=
  decode s.cmd = .ok i ∧ Admitted cap i s.msgLen ∧ ValidParameters i.klen i.ivlen

/-- A command whose chain has begun (R42, R158, R192, R193). -/
def Chaining (cap : Nat) (i : Instr) (s : State) : Prop :=
  NothingPublished s ∧ Validated cap i s ∧ LengthChecked i s.msgLen ∧ s.nblk = blocksOf i s.msgLen ∧ ChainHolds i s

/-- An idle engine: the hidden state cleared, the result of the last command as R24, R34 and R35 say. -/
def Resting (cap : Nat) (s : State) : Prop :=
  s.blk = 0 ∧ s.nblk = 0 ∧ s.wlen = 0 ∧ s.chain = zeroBlock ∧
  s.obuf.Below s.olen.toNat ∧ s.olen.toNat ≤ cap ∧
  (s.status.done = false → NothingPublished s) ∧
  (s.status.code ≠ .ok → s.olen = 0) ∧
  (s.status.code ≠ .underlyingCipherFailure → s.cerr = 0)

/-- What holds in each phase (R40 to R43, R50). -/
def PhaseHolds (cap : Nat) (s : State) : Prop :=
  match s.phase with
  | .idle => Resting cap s
  | .decode => Cleared s
  | .validate => Cleared s ∧ ∃ i, decode s.cmd = .ok i ∧ Admitted cap i s.msgLen
  | .lencheck => Cleared s ∧ ∃ klen ivlen, Validated cap (.decrypt klen ivlen) s
  | .chain => ∃ i, Chaining cap i s ∧ s.blk < s.nblk ∧ s.obuf.Below (16 * s.blk) ∧ s.wlen = 0
  | .unpad => ∃ klen ivlen, Chaining cap (.decrypt klen ivlen) s ∧ s.blk = s.nblk ∧ 1 ≤ s.nblk ∧
      s.obuf.Below (16 * s.nblk) ∧ s.wlen = 0
  | .commit => ∃ i, Chaining cap i s ∧ s.blk = s.nblk ∧ 1 ≤ s.nblk ∧ s.obuf.Below s.wlen ∧ ResultLength i s

/-- `STATUS` agrees with `PHASE`, and its fields with each other (spec/10_state.md R33, R40). -/
def StatusHolds (s : State) : Prop :=
  (s.status.busy = true ↔ s.phase ≠ .idle) ∧
  (s.status.busy = true → s.status.done = false) ∧
  (s.status.done = false → s.status.code = .ok)

/-- Both sparse stores are in canonical form and within `BUFCAP` (R23, R24). -/
def StoresHold (cap : Nat) (s : State) : Prop :=
  s.ibuf.wf ∧ s.obuf.wf ∧ s.ibuf.Below cap ∧ s.obuf.Below cap

/-- The consistent states of an engine whose stores hold `cap` bytes: every state a run can reach is one. -/
def State.ConsistentOn (cap : Nat) (s : State) : Prop := StatusHolds s ∧ StoresHold cap s ∧ PhaseHolds cap s

/-- The consistent states of the machine. -/
def State.Consistent (s : State) : Prop := s.ConsistentOn Config.platform.bufcap

/-! ### Runs -/

/-- `n` steps of the machine, one after another, end in `t`. -/
def Runs (n : Nat) (s t : State) : Prop := Sys2Proof.core.run n s = .next t

/-- The machine on a platform given as an argument: the open parameters bound (spec/70_reset_and_hazards.md R253). -/
def coreOn (P : Platform) : Host.Core :=
  { State := State, Fault := Fault, Refusal := Refusal, step := stepOn P, reset := State.reset }

/-- `n` steps of the machine on platform `P`, one after another, end in `t`. -/
def RunsOn (P : Platform) (n : Nat) (s t : State) : Prop := (coreOn P).run n s = .next t

/-- The number of engine steps of a legal command within capacity, from the capability applications it makes and its
result (the table of spec/43_mode_facade.md R198). An ENCRYPT never ends in InvalidCiphertextLength or InvalidPadding. -/
def engineSteps (i : Instr) (calls : List CipherCall) (result : Except ErrorKind (List Byte)) : Nat :=
  match i, result with
  | _, .error .invalidParameters => 2
  | _, .error .invalidCiphertextLength => 3
  | .encrypt _ _, .ok _ => calls.length + 3
  | .encrypt _ _, .error (.underlyingCipherFailure _) => calls.length + 2
  | .encrypt _ _, .error .invalidPadding => 0 -- never
  | .decrypt _ _, .ok _ => calls.length + 5
  | .decrypt _ _, .error (.underlyingCipherFailure _) => calls.length + 3
  | .decrypt _ _, .error .invalidPadding => calls.length + 4

/-- The bytes a host reads from `OBUF` all being zero: no partial output (spec/43_mode_facade.md R183). -/
def NoOutput (s : State) : Prop := ∀ i, hostReadByte Config.platform.bufcap .obuf i s = 0x00

/-! ### Operands -/

/-- The two states hold the same operands of the command word `w`: `ILEN`, `KEY[0..KLEN)`, `IV`, `IBUF[0..ILEN)`
(spec/10_state.md R45). -/
def SameOperands (w : Word) (s t : State) : Prop :=
  s.ilen = t.ilen ∧ s.iv = t.iv ∧
  s.key.toList.take (klenField w) = t.key.toList.take (klenField w) ∧
  s.message = t.message

/-- The two states show the same result: `STATUS`, `OLEN`, `CERR`, `OBUF` (R45). -/
def SameResult (s t : State) : Prop :=
  s.status = t.status ∧ s.olen = t.olen ∧ s.cerr = t.cerr ∧ s.obuf = t.obuf

/-- An event from outside other than a reset. -/
def HostEvent.IsReset : HostEvent → Prop
  | .reset => True
  | _ => False

end Sys2Proof.Machine
end

