-- ==== Sys2Proof/Certificates/Slice0/Obligations.lean ====
section
/-! DEFINITION. The statements for the provers: what the commands, the host accesses, the failure entry and reset do,
each with the rules of spec/ it rests on. A statement about "the machine" is about `step`, `exec` and `Sys2Proof.core`,
which run on the opaque `Config.platform`; a statement that needs a hypothesis on the cipher is about every platform
`P`, the machine's own included. -/

open Sys2Proof Sys2Proof.Machine

/-! ### Encoding -/

/-- Decode and encode agree on every format-`C` command (R90, R94, R100). -/
def Obligations.DecodeOfEncodeIsIdentity : Prop :=
  ∀ i : Instr, i.wellFormed = true → decode (encode i) = .ok i

/-- Every legal word is the encoding of the well-formed command it decodes to: each legal word has one meaning and no
bit of it is dropped (R90, R94, R100). -/
def Obligations.EncodeOfDecodeIsIdentity : Prop :=
  ∀ (w : Word) (i : Instr), decode w = .ok i → i.wellFormed = true ∧ encode i = w

/-- R94, on the number the word is: the total decoder, and how many words are legal. -/
def Obligations.DecodeIsTheTotalFunctionOfTheWord : Prop :=
  (∀ w : Word,
    if w.toNat / 16777216 ≠ 0 then ∃ e, decode w = .error e
    else if w.toNat % 256 = 1 then
      decode w = .ok (.encrypt (w.toNat / 256 % 256) (w.toNat / 65536 % 256))
    else if w.toNat % 256 = 2 then
      decode w = .ok (.decrypt (w.toNat / 256 % 256) (w.toNat / 65536 % 256))
    else ∃ e, decode w = .error e) ∧
  Nat.card { w : Word // ∃ i, decode w = .ok i } = 131072

/-- R91: a word selects a row of the opcode table when `w & mask = match`, and then decodes to that row's command with
any `KLEN` and `IVLEN`. -/
def Obligations.DecodeSelectsTheTableRowByMaskAndMatch : Prop :=
  ∀ w : Word,
    (w &&& 0xFF0000FF = 0x00000001 ↔ ∃ klen ivlen, decode w = .ok (.encrypt klen ivlen)) ∧
    (w &&& 0xFF0000FF = 0x00000002 ↔ ∃ klen ivlen, decode w = .ok (.decrypt klen ivlen))

/-- The six example words of R91 and three illegal words of spec/96_test_vectors_derived.md section 2.11. -/
def Obligations.ExampleCommandWordsDecode : Prop :=
  decode 0x00101001 = .ok (.encrypt 16 16) ∧ decode 0x00101801 = .ok (.encrypt 24 16) ∧
  decode 0x00102001 = .ok (.encrypt 32 16) ∧ decode 0x00101002 = .ok (.decrypt 16 16) ∧
  decode 0x00101802 = .ok (.decrypt 24 16) ∧ decode 0x00102002 = .ok (.decrypt 32 16) ∧
  decode 0x00101003 = .error (.unknownOperation 0x03) ∧ decode 0x01101001 = .error (.reservedNotZero 0x01) ∧
  decode 0x00000000 = .error (.unknownOperation 0x00)

/-! ### The step and the commands -/

/-- A step runs the decoded command: with nothing on its way from outside, or an engine turn next, a busy engine's step
is `exec` of the command whose word is latched in `CMD` (spec/43_mode_facade.md section 3; the place of the engine turn
is the model's, notes/assumptions/2.md). -/
def Obligations.StepRunsTheLatchedCommand : Prop :=
  ∀ (s : State) (i : Instr), s.phase ≠ .idle → decode s.cmd = .ok i →
    (s.pending = [] → step s = exec i s) ∧
    (∀ rest, s.pending = .engineTurn :: rest → step s = exec i { s with pending := rest })

/-- The word placed by `withFetchWord` is the command the very next step runs (notes/assumptions/1.md). -/
def Obligations.PlacedWordIsTheNextCommandRun : Prop :=
  ∀ (s : State) (nbits w : Nat) (i : Instr), s.pending = [] → decodeTableWord nbits w = some i →
    step (s.withFetchWord nbits w) = exec i (s.withFetchWord nbits w)

/-- R237: an idle engine with nothing on its way does nothing and keeps all its state. -/
def Obligations.IdleEngineKeepsItsState : Prop :=
  ∀ s : State, s.phase = .idle → s.pending = [] → step s = .next s

/-- R191, the DECODE step, in the order of its tests, from the bits of the latched word. -/
def Obligations.DecodeStepChecksWordThenCapacity : Prop :=
  ∀ s : State, s.phase = .decode → s.pending = [] →
    step s = .next
      (if rsvdField s.cmd ≠ 0x00 ∨ (opField s.cmd ≠ 0x01 ∧ opField s.cmd ≠ 0x02) then fail .illegalCommand 0 s
       else if opField s.cmd = 0x01 ∧ s.ilen.toNat ≥ Config.platform.bufcap then fail .capacityExceeded 0 s
       else if opField s.cmd = 0x02 ∧ s.ilen.toNat > Config.platform.bufcap then fail .capacityExceeded 0 s
       else { s with phase := .validate })

/-- R192, the VALIDATE step of both commands. -/
def Obligations.ValidateStepChecksBothLengths : Prop :=
  ∀ (s : State) (klen ivlen : Nat), s.phase = .validate →
    exec (.encrypt klen ivlen) s = .next
      (if ivlen ≠ 16 ∨ ¬(klen = 16 ∨ klen = 24 ∨ klen = 32) then fail .invalidParameters 0 s
       else { s with nblk := s.ilen.toNat / 16 + 1, chain := s.iv, phase := .chain }) ∧
    exec (.decrypt klen ivlen) s = .next
      (if ivlen ≠ 16 ∨ ¬(klen = 16 ∨ klen = 24 ∨ klen = 32) then fail .invalidParameters 0 s
       else { s with phase := .lencheck })

/-- R193, the LENCHECK step of a DECRYPT. -/
def Obligations.LengthCheckStepOfDecrypt : Prop :=
  ∀ (s : State) (klen ivlen : Nat), s.phase = .lencheck →
    exec (.decrypt klen ivlen) s = .next
      (if s.ilen.toNat % 16 ≠ 0 ∨ s.ilen.toNat < 16 then fail .invalidCiphertextLength 0 s
       else { s with nblk := s.ilen.toNat / 16, chain := s.iv, phase := .chain })

/-- R194, the CHAIN step of ENCRYPT, complete: the request made, and for either answer the next state, with every
byte of `OBUF`; all else is as before. The engine's block is in range (R70). -/
def Obligations.EncryptChainStepCompletes : Prop :=
  ∀ (s : State) (klen ivlen : Nat) (key : Key), s.phase = .chain → s.blk < s.nblk →
    16 * s.blk + 16 ≤ Config.platform.bufcap → s.obuf.wf →
    (klen = 16 ∨ klen = 24 ∨ klen = 32) → key.bytes = s.key.toList.take klen →
    ∃ (t : State) (x : Block),
      exec (.encrypt klen ivlen) s = .next t ∧
      (∀ j : Fin 16, x[j] =
        (if 16 * s.blk + j.val < s.ilen.toNat then s.ibuf.read (16 * s.blk + j.val)
         else BitVec.ofNat 8 (16 - s.ilen.toNat % 16)) ^^^ s.chain[j]) ∧
      t.trace = s.trace ++ [⟨.enc, key, x, Config.cipherEnc key x⟩] ∧
      match Config.cipherEnc key x with
      | .err ce => t = fail .underlyingCipherFailure ce { s with trace := t.trace }
      | .ok e =>
        t = { s with
              trace := t.trace, obuf := t.obuf, chain := e, blk := s.blk + 1
              wlen := if s.blk + 1 = s.nblk then 16 * s.nblk else s.wlen
              phase := if s.blk + 1 = s.nblk then .commit else .chain } ∧
        (∀ j : Fin 16, t.obuf.read (16 * s.blk + j.val) = e[j]) ∧
        (∀ a, a < 16 * s.blk ∨ 16 * s.blk + 16 ≤ a → t.obuf.read a = s.obuf.read a)

/-- R195, the CHAIN step of DECRYPT, complete: the request made, and for either answer the next state, with every
byte of `OBUF`; all else is as before. The engine's block is in range (R70). -/
def Obligations.DecryptChainStepCompletes : Prop :=
  ∀ (s : State) (klen ivlen : Nat) (key : Key), s.phase = .chain → s.blk < s.nblk →
    16 * s.blk + 16 ≤ Config.platform.bufcap → s.obuf.wf →
    (klen = 16 ∨ klen = 24 ∨ klen = 32) → key.bytes = s.key.toList.take klen →
    ∃ (t : State) (cin : Block),
      exec (.decrypt klen ivlen) s = .next t ∧
      (∀ j : Fin 16, cin[j] = s.ibuf.read (16 * s.blk + j.val)) ∧
      t.trace = s.trace ++ [⟨.dec, key, cin, Config.cipherDec key cin⟩] ∧
      match Config.cipherDec key cin with
      | .err ce => t = fail .underlyingCipherFailure ce { s with trace := t.trace }
      | .ok d =>
        t = { s with
              trace := t.trace, obuf := t.obuf, chain := cin, blk := s.blk + 1
              phase := if s.blk + 1 = s.nblk then .unpad else .chain } ∧
        (∀ j : Fin 16, t.obuf.read (16 * s.blk + j.val) = d[j] ^^^ s.chain[j]) ∧
        (∀ a, a < 16 * s.blk ∨ 16 * s.blk + 16 ≤ a → t.obuf.read a = s.obuf.read a)

/-- R196, the UNPAD step of a DECRYPT, complete: from the bytes of the last result block, bad padding fails, good
padding is stripped to zero and the result length set; all else is as before. -/
def Obligations.UnpadStepOfDecryptCompletes : Prop :=
  ∀ (s : State) (klen ivlen : Nat), s.phase = .unpad → 1 ≤ s.nblk → 16 * s.nblk ≤ Config.platform.bufcap →
    s.obuf.wf →
    ∃ t : State, exec (.decrypt klen ivlen) s = .next t ∧
      let last : Nat → Byte := fun j => s.obuf.read (16 * (s.nblk - 1) + j)
      let n := (last 15).toNat
      if n = 0 ∨ n > 16 ∨ ∃ j : Fin 16, 16 - n ≤ j.val ∧ last j.val ≠ last 15 then t = fail .invalidPadding 0 s
      else
        t = { s with obuf := t.obuf, wlen := 16 * s.nblk - n, phase := .commit } ∧
        (s.ilen.toNat = 16 * s.nblk → t.wlen = s.ilen.toNat - n) ∧
        ∀ a, t.obuf.read a = if 16 * s.nblk - n ≤ a ∧ a ≤ 16 * s.nblk - 1 then 0x00 else s.obuf.read a

/-- R197, the COMMIT step of either command: the result becomes visible at once, `CERR` is 0 and `OBUF` is zero beyond
`OLEN`. -/
def Obligations.CommitStepPublishesTheResult : Prop :=
  ∀ (s : State) (i : Instr), s.Consistent → s.phase = .commit →
    ∃ t : State, exec i s = .next t ∧
      t = { s with
            olen := t.olen, status := ⟨false, true, .ok⟩, blk := 0, nblk := 0, wlen := 0
            chain := Vector.replicate 16 0x00, phase := .idle } ∧
      t.olen.toNat = s.wlen ∧ t.cerr = 0 ∧ (∀ a, t.olen.toNat ≤ a → t.obuf.read a = 0x00)

/-- R34, R202: what `OLEN` holds after a command that completed `Ok`: the padded length of the message for an ENCRYPT,
1 to 16 bytes less than the message for a DECRYPT. -/
def Obligations.PublishedLengthOfEachCommand : Prop :=
  ∀ (s t : State) (i : Instr), s.Consistent → s.phase = .commit → decode s.cmd = .ok i → exec i s = .next t →
    match i with
    | .encrypt _ _ =>
      t.olen.toNat = 16 * (s.ilen.toNat / 16 + 1) ∧
      (s.ilen.toNat % 16 ≠ 0 → t.olen.toNat = s.ilen.toNat + (16 - s.ilen.toNat % 16)) ∧
      (s.ilen.toNat % 16 = 0 → t.olen.toNat = s.ilen.toNat + 16)
    | .decrypt _ _ => s.ilen.toNat ≤ t.olen.toNat + 16 ∧ t.olen.toNat + 1 ≤ s.ilen.toNat

/-- R226: whatever failure a step of a busy engine ends in, the step leaves exactly what the FAIL action says, and
`CERR` is 0 unless the code is 4. -/
def Obligations.FailureLeavesExactlyTheFailAction : Prop :=
  ∀ s t : State, s.phase ≠ .idle → s.pending = [] → step s = .next t → t.phase = .idle → t.status.code ≠ .ok →
    ∃ (code : ResultCode) (ce : CipherError),
      t = { s with
            trace := t.trace, obuf := t.obuf, olen := 0, cerr := ce, status := ⟨false, true, code⟩
            blk := 0, nblk := 0, wlen := 0, chain := Vector.replicate 16 0x00, phase := .idle } ∧
      (∀ a, t.obuf.read a = 0x00) ∧ (code ≠ .underlyingCipherFailure → ce = 0)

/-- R46, R228: the frame of every engine step of either command: the operands, the command word, the host's reads and
what is on its way from outside stay, and at most one capability application is recorded. -/
def Obligations.EngineStepFrame : Prop :=
  ∀ (i : Instr) (s t : State), exec i s = .next t →
    t.key = s.key ∧ t.iv = s.iv ∧ t.ibuf = s.ibuf ∧ t.ilen = s.ilen ∧ t.cmd = s.cmd ∧
    t.reads = s.reads ∧ t.pending = s.pending ∧
    (t.trace = s.trace ∨ ∃ c, t.trace = s.trace ++ [c] ∧ (t.status.code = .underlyingCipherFailure ∨ t.blk = s.blk + 1))

/-! ### Host accesses -/

/-- R63, R36: one host write of a register, for every register number and whether busy or not. -/
def Obligations.HostWriteOfRegister : Prop :=
  ∀ (s : State) (n : Nat) (v : Word) (rest : List HostEvent), s.pending = .access (.writeReg n v) :: rest →
    step s = .next
      (if s.status.busy then { s with pending := rest }
       else if n = 0 then start v { s with pending := rest }
       else if n = 1 then { s with pending := rest, ilen := v }
       else { s with pending := rest })

/-- R190, START: what the accepted write of a command word leaves, all at once. -/
def Obligations.AcceptedCommandWriteStartsTheSequencer : Prop :=
  ∀ (s : State) (w : Word) (rest : List HostEvent), s.status.busy = false →
    s.pending = .access (.writeReg 0 w) :: rest →
    ∃ t : State, step s = .next t ∧
      t = { s with
            pending := rest, cmd := w, status := ⟨true, false, .ok⟩, olen := 0, cerr := 0, obuf := t.obuf
            blk := 0, nblk := 0, wlen := 0, chain := Vector.replicate 16 0x00, phase := .decode } ∧
      ∀ a, t.obuf.read a = 0x00

/-- R64, R36: one host read of a register: the value for every register number, and nothing else changes; while busy a
consistent engine shows `STATUS = 1` and zero results. -/
def Obligations.HostReadOfRegister : Prop :=
  ∀ (s : State) (n : Nat) (rest : List HostEvent), s.pending = .access (.readReg n) :: rest →
    ∃ v : Word, step s = .next { s with pending := rest, reads := s.reads ++ [.register n v] } ∧
      v = (if n = 0 then s.cmd
           else if n = 1 then s.ilen
           else if n = 2 then
             (BitVec.ofBool s.status.busy).setWidth 32 + 2 * (BitVec.ofBool s.status.done).setWidth 32 +
               16 * BitVec.ofNat 32 s.status.code.value
           else if n = 3 then s.olen
           else if n = 4 then s.cerr
           else 0) ∧
      (s.Consistent → s.status.busy = true → n = 2 → v = 0x00000001) ∧
      (s.Consistent → s.status.busy = true → n = 3 ∨ n = 4 → v = 0)

/-- R65, R68: one host write of a byte: ignored while busy, on `OBUF` and out of range; else the one byte, and every
other byte of every store as before. -/
def Obligations.HostWriteOfByte : Prop :=
  ∀ (s : State) (store : Store) (i : Nat) (v : Byte) (rest : List HostEvent), s.ibuf.wf →
    s.pending = .access (.writeByte store i v) :: rest →
    ∃ t : State, step s = .next t ∧
      if s.status.busy = true ∨ store = .obuf ∨ storeSize Config.platform.bufcap store ≤ i then
        t = { s with pending := rest }
      else
        t = { s with pending := rest, key := t.key, iv := t.iv, ibuf := t.ibuf } ∧
        t.storeByte store i = v ∧
        ∀ store' i', (store' ≠ store ∨ i' ≠ i) → t.storeByte store' i' = s.storeByte store' i'

/-- R66, R68: one host read of a byte: the value, and nothing else changes; a consistent engine shows a byte of `OBUF`
that is not zero only after a command completed `Ok`, and below `OLEN`. -/
def Obligations.HostReadOfByte : Prop :=
  ∀ (s : State) (store : Store) (i : Nat) (rest : List HostEvent), s.pending = .access (.readByte store i) :: rest →
    ∃ v : Byte, step s = .next { s with pending := rest, reads := s.reads ++ [.byte store i v] } ∧
      v = (if storeSize Config.platform.bufcap store ≤ i then 0x00
           else if store = .obuf ∧ s.status.busy = true then 0x00
           else s.storeByte store i) ∧
      (s.Consistent → store = .obuf → v ≠ 0x00 →
        s.status.done = true ∧ s.status.code = .ok ∧ i < s.olen.toNat)

/-- R67, R255: while busy, any number of host writes, to any register or byte, are ignored and not remembered. -/
def Obligations.WritesWhileBusyAreLost : Prop :=
  ∀ (s : State) (writes : List Access) (rest : List HostEvent), s.status.busy = true →
    (∀ a ∈ writes, (∃ n v, a = .writeReg n v) ∨ ∃ store i v, a = .writeByte store i v) →
    s.pending = writes.map .access ++ rest → Runs writes.length s { s with pending := rest }

/-- R78: a host cannot tell how many engine steps have been taken: two consistent busy states with the same operands and
the same command word answer every host read alike. -/
def Obligations.HostCannotTellEngineStepsApart : Prop :=
  ∀ s t : State, s.Consistent → t.Consistent → s.status.busy = true → t.status.busy = true →
    s.cmd = t.cmd → s.ilen = t.ilen → s.key = t.key → s.iv = t.iv → s.ibuf = t.ibuf →
    (∀ n, hostReadReg n s = hostReadReg n t) ∧
    ∀ store i, hostReadByte Config.platform.bufcap store i s = hostReadByte Config.platform.bufcap store i t

/-- R46, R76: no step of a busy engine but a reset changes an operand or the command word. -/
def Obligations.OperandsAreLockedWhileBusy : Prop :=
  ∀ s t : State, s.status.busy = true → (∀ rest, s.pending ≠ .reset :: rest) → step s = .next t →
    t.key = s.key ∧ t.iv = s.iv ∧ t.ibuf = s.ibuf ∧ t.ilen = s.ilen ∧ t.cmd = s.cmd

/-- R47, R69: an idle engine's result stays, and no command starts, through every step but an accepted `CMD` write and a
reset. -/
def Obligations.ResultIsRetainedWhileIdle : Prop :=
  ∀ s t : State, s.phase = .idle → (∀ rest, s.pending ≠ .reset :: rest) →
    (∀ w rest, s.pending ≠ .access (.writeReg 0 w) :: rest) → step s = .next t →
    SameResult s t ∧ t.phase = .idle

/-- R24, R66, R183: a consistent engine that is busy, has failed, or has completed nothing shows the host no byte of
output. -/
def Obligations.NoPartialOutputIsReadable : Prop :=
  ∀ s : State, s.Consistent → (s.status.busy = true ∨ s.status.done = false ∨ s.status.code ≠ .ok) → NoOutput s

/-- R100, `WAIT`: from a consistent busy state the loop ends, with the command completed. The one poll between two
engine steps is the model's choice (notes/assumptions/3.md). -/
def Obligations.WaitEndsWithTheCommandDone : Prop :=
  ∀ (s : State) (rest : List HostEvent), s.Consistent → s.status.busy = true → s.pending = .wait :: rest →
    ∃ (n : Nat) (t : State), Runs n s t ∧ t.pending = rest ∧ t.phase = .idle ∧ t.status.done = true

/-- R100, `MOVEOUT`: the result becomes the next message, byte by byte, and nothing else of the engine changes. -/
def Obligations.MoveoutFeedsTheResultBack : Prop :=
  ∀ (s : State) (rest : List HostEvent), s.Consistent → s.status.busy = false → s.pending = .moveout :: rest →
    ∃ t : State, Runs (2 * s.olen.toNat + 2) s t ∧
      t = { s with pending := rest, reads := t.reads, ibuf := t.ibuf, ilen := s.olen } ∧
      ∀ a, t.ibuf.read a = if a < s.olen.toNat then s.obuf.read a else s.ibuf.read a

/-! ### Reset and the invariant -/

/-- R48, R250, R251: a reset, in any state, gives every piece of state its reset value. The clauses that `trace`, `reads`
and `pending` survive are the model's, not R48's (notes/assumptions/7.md): that a reset keeps the trace's records is read
from R251, that `reads` and `pending` are outside the engine is a design choice. -/
def Obligations.ResetGivesEveryFieldItsValue : Prop :=
  ∀ (s : State) (rest : List HostEvent), s.pending = .reset :: rest →
    ∃ t : State, step s = .next t ∧
      (∀ i, (h : i < 32) → t.key[i] = 0x00) ∧ (∀ i, (h : i < 16) → t.iv[i] = 0x00) ∧
      (∀ a, t.ibuf.read a = 0x00) ∧ (∀ a, t.obuf.read a = 0x00) ∧
      t.cmd = 0 ∧ t.ilen = 0 ∧ t.status = ⟨false, false, .ok⟩ ∧ t.status.word = 0x00000000 ∧
      t.olen = 0 ∧ t.cerr = 0 ∧ t.phase = .idle ∧ t.blk = 0 ∧ t.nblk = 0 ∧ t.wlen = 0 ∧
      (∀ i, (h : i < 16) → t.chain[i] = 0x00) ∧ t.trace = s.trace ∧
      t = { State.reset with trace := s.trace, reads := s.reads, pending := rest }

/-- The invariant holds at reset (R48). -/
def Obligations.ResetStateIsConsistent : Prop := State.reset.Consistent

/-- Every step, of whatever agent, keeps the invariant (R20 to R24, R33 to R35, R40 to R43, R50, R158). -/
def Obligations.EveryStepKeepsConsistency : Prop :=
  ∀ s t : State, s.Consistent → step s = .next t → t.Consistent

/-- R12, R231: no step from a consistent state stops: the engine has no trap, no fault state and no stuck state that
host data can reach. -/
def Obligations.NoConsistentStateStops : Prop :=
  ∀ s : State, s.Consistent → ∃ t, step s = .next t

/-- R33: the only words `STATUS` takes, that `BUSY` and `DONE` are never both 1, and that `BUSY` equals
`PHASE != IDLE`. -/
def Obligations.StatusTakesOnlyItsWords : Prop :=
  ∀ s : State, s.Consistent →
    (s.status.word = 0x00000000 ∨ s.status.word = 0x00000001 ∨ s.status.word = 0x00000002 ∨
      s.status.word = 0x00000012 ∨ s.status.word = 0x00000022 ∨ s.status.word = 0x00000032 ∨
      s.status.word = 0x00000042 ∨ s.status.word = 0x00000052 ∨ s.status.word = 0x00000062) ∧
    (s.status.word.getLsbD 0 = true ↔ s.phase ≠ .idle) ∧
    (s.status.word.getLsbD 1 = s.status.done) ∧ ¬(s.status.busy = true ∧ s.status.done = true) ∧
    (s.status.done = false → s.status.word.extractLsb' 4 4 = 0)

/-- R33, R251: a command ends with a result code: a step of a busy consistent engine that leaves it idle sets `DONE`,
unless it is a reset. -/
def Obligations.OnlyResetEndsACommandWithoutCode : Prop :=
  ∀ s t : State, s.Consistent → s.status.busy = true → (∀ rest, s.pending ≠ .reset :: rest) → step s = .next t →
    t.phase = .idle → t.status.done = true

/-! ### Whole commands on the machine -/

/-- R198, R199: the two semantics agree. From the state START leaves, a legal command within capacity reaches, after
exactly the number of engine steps of the table, the state that shows the big-step result: code, `OLEN`, `OBUF`, `CERR`,
the hidden state cleared, and the trace extended by the applications the big-step evaluation makes, in order. -/
def Obligations.CommandReachesItsFacadeResult : Prop :=
  ∀ (s : State) (w : Word) (i : Instr), s.pending = [] → decode w = .ok i →
    Admitted Config.platform.bufcap i s.msgLen →
    let r := facadeResult Config.platform i s
    Runs (engineSteps i r.1 r.2) (start w s) (finish r (start w s))

/-- R95, R199, R225, R227, R231: every one of the 2^32 words, written to an idle engine holding any operands, leads to a
completed command, with the first code that applies. -/
def Obligations.EveryWordCompletesWithItsCode : Prop :=
  ∀ (s : State) (w : Word), s.status.busy = false → s.pending = [.access (.writeReg 0 w)] →
    ∃ (n : Nat) (t : State), Runs n s t ∧ t.phase = .idle ∧ t.cmd = w ∧ t.status.done = true ∧ t.status.busy = false ∧
      (∀ e, decode w = .error e → t.status.code = .illegalCommand ∧ t.olen = 0 ∧ n = 2 ∧ t.trace = s.trace) ∧
      (∀ i, decode w = .ok i → ¬Admitted Config.platform.bufcap i s.msgLen →
        t.status.code = .capacityExceeded ∧ t.olen = 0 ∧ n = 2 ∧ t.trace = s.trace) ∧
      (∀ i, decode w = .ok i → Admitted Config.platform.bufcap i s.msgLen →
        match (facadeResult Config.platform i s).2 with
        | .ok _ => t.status.code = .ok
        | .error e => t.status.code = e.code)

/-- R198: every command ends: an engine with nothing on its way is idle again after at most `BUFCAP / 16 + 5` steps, and
if it was busy, with `DONE` set. -/
def Obligations.EveryCommandEnds : Prop :=
  ∀ s : State, s.Consistent → s.pending = [] →
    ∃ (n : Nat) (t : State), n ≤ Config.platform.bufcap / 16 + 5 ∧ Runs n s t ∧ t.phase = .idle ∧
      (s.phase ≠ .idle → t.status.done = true)

/-- R205: a command with a bad key length or IV length completes with `InvalidParameters` in two engine steps, the
capability not invoked, whatever `ILEN` is within capacity. -/
def Obligations.BadParametersAreRejectedWithoutTheCipher : Prop :=
  ∀ (s : State) (w : Word) (i : Instr), s.pending = [] → decode w = .ok i →
    Admitted Config.platform.bufcap i s.msgLen →
    (¬(i.klen = 16 ∨ i.klen = 24 ∨ i.klen = 32) ∨ i.ivlen ≠ 16) →
    ∃ t : State, Runs 2 (start w s) t ∧ t = fail .invalidParameters 0 (start w s) ∧ t.trace = s.trace

/-- R204: a DECRYPT with valid parameters whose `ILEN` is 0 or no multiple of 16 completes with
`InvalidCiphertextLength` in three engine steps, the capability not invoked. -/
def Obligations.BadCiphertextLengthIsRejectedWithoutTheCipher : Prop :=
  ∀ (s : State) (w : Word) (klen : Nat), s.pending = [] → decode w = .ok (.decrypt klen 16) →
    (klen = 16 ∨ klen = 24 ∨ klen = 32) → s.ilen.toNat ≤ Config.platform.bufcap →
    (s.ilen.toNat = 0 ∨ s.ilen.toNat % 16 ≠ 0) →
    ∃ t : State, Runs 3 (start w s) t ∧ t = fail .invalidCiphertextLength 0 (start w s) ∧ t.trace = s.trace

/-- R206, R223: a ciphertext that decrypts to a last block with a bad pad byte or inconsistent trailing bytes fails with
`InvalidPadding`, after all `NBLK` applications, and no byte of the decrypted blocks is left; on every platform. -/
def Obligations.BadPaddingIsRejectedAfterTheWholeChain : Prop :=
  ∀ (P : Platform) (s : State) (w : Word) (klen : Nat) (key : Key) (calls : List CipherCall) (blocks : List Block)
    (last : Block), s.pending = [] → decode w = .ok (.decrypt klen 16) → keyOperand s.key klen = some key →
    s.msgLen ≤ P.bufcap → s.msgLen % 16 = 0 → 16 ≤ s.msgLen →
    decChain P key s.iv (ctsplit s.message) = (calls, .ok blocks) → blocks.getLast? = some last →
    (last[15].toNat = 0 ∨ last[15].toNat > 16 ∨ ∃ j : Fin 16, 16 - last[15].toNat ≤ j.val ∧ last[j] ≠ last[15]) →
    ∃ t : State, RunsOn P (s.msgLen / 16 + 4) (start w s) t ∧
      t = fail .invalidPadding 0 { start w s with trace := s.trace ++ calls } ∧
      calls.length = s.msgLen / 16 ∧ ∀ a, t.obuf.read a = 0x00

/-- R45: the result of a command is a function of its operands alone: two engines with the same operands, whatever
else they hold, go through the same results step by step and make the same capability applications. -/
def Obligations.CommandsAreStateless : Prop :=
  ∀ (s t : State) (w : Word), s.pending = [] → t.pending = [] → SameOperands w s t →
    ∀ (n : Nat) (s' : State), Runs n (start w s) s' →
      ∃ (t' : State) (calls : List CipherCall), Runs n (start w t) t' ∧ SameResult s' t' ∧ s'.phase = t'.phase ∧
        s'.trace = s.trace ++ calls ∧ t'.trace = t.trace ++ calls

/-- R253: the two example commands issued straight after reset: `0x00101001` enciphers the all-padding block under the
all-zero key, `0x00000001` gives `InvalidParameters`. -/
def Obligations.FirstCommandsAfterReset : Prop :=
  let zeroKey : Key := ⟨List.replicate 16 0x00, Or.inl rfl⟩
  let issue : Word → State := fun w => { State.reset with pending := [.access (.writeReg 0 w)] }
  (match Config.cipherEnc zeroKey (Vector.replicate 16 0x10) with
    | .ok e => ∃ t, Runs 5 (issue 0x00101001) t ∧ t.status = ⟨false, true, .ok⟩ ∧ t.olen = 16 ∧
        ∀ j : Fin 16, t.obuf.read j.val = e[j]
    | .err ce => ∃ t, Runs 4 (issue 0x00101001) t ∧ t.status = ⟨false, true, .underlyingCipherFailure⟩ ∧
        t.olen = 0 ∧ t.cerr = ce) ∧
  ∃ t, Runs 3 (issue 0x00000001) t ∧ t.status = ⟨false, true, .invalidParameters⟩ ∧ t.trace = []

/-- R203 on the device, on every platform whose cipher has the inverse property: if an ENCRYPT of the message completes
`Ok`, then the DECRYPT of its result, under the same key and IV, completes `Ok` and gives the message back. -/
def Obligations.DecryptOfEncryptRestoresTheMessageOnTheDevice : Prop :=
  ∀ (P : Platform) (s t : State) (klen n : Nat), P.CipherInverse → s.pending = [] →
    (klen = 16 ∨ klen = 24 ∨ klen = 32) → s.msgLen < P.bufcap →
    RunsOn P n (start (encode (.encrypt klen 16)) s) t → t.phase = .idle → t.status.code = .ok →
    ∃ (m : Nat) (u : State),
      RunsOn P m (start (encode (.decrypt klen 16)) { t with ibuf := t.obuf, ilen := t.olen }) u ∧
      u.phase = .idle ∧ u.status.done = true ∧ u.status.code = .ok ∧ u.olen = s.ilen ∧
      u.obuf.readBytes 0 s.msgLen = s.message

/-! ### The functions of the source -/

/-- R150: the XOR of blocks, lane by lane and bit by bit, and its laws. -/
def Obligations.XorOfBlocksIsBytewise : Prop :=
  ∀ a b c : Block,
    (∀ (j : Fin 16) (t : Nat), (xorBlock a b)[j].getLsbD t = (a[j].getLsbD t != b[j].getLsbD t)) ∧
    xorBlock a a = Vector.replicate 16 0x00 ∧ xorBlock a (Vector.replicate 16 0x00) = a ∧
    xorBlock (xorBlock a b) b = a ∧ xorBlock a b = xorBlock b a ∧
    xorBlock (xorBlock a b) c = xorBlock a (xorBlock b c)

/-- R111: the general `UNPAD` accepts exactly the buffers of a positive multiple of 16 bytes that end in `n` bytes of
value `n`, `n` at least 1, and returns what stands before them. -/
def Obligations.UnpadAcceptsExactlyTrailingPadding : Prop :=
  (∀ buf out : List Byte,
    unpad buf = .ok out ↔
      buf.length % 16 = 0 ∧ ∃ n, 0 < n ∧ n < 256 ∧ buf = out ++ List.replicate n (BitVec.ofNat 8 n)) ∧
  ∀ buf e, unpad buf = .error e → e = .invalidPadding

/-- R112: `UNPAD16` is `UNPAD` on one block, and its pad length is at most 16. -/
def Obligations.UnpadOfOneBlockIsTheGeneralUnpad : Prop :=
  ∀ last : Block, unpad16 last = unpad last.toList ∧
    (last[15].toNat > 16 → unpad16 last = .error .invalidPadding)

/-- R113: `UNPAD16(PAD(chunk)) = Ok(chunk)`, and conversely `UNPAD16` accepts only what `PAD` makes. -/
def Obligations.UnpadInvertsPad : Prop :=
  ∀ (chunk : List Byte) (last : Block),
    (∀ h : chunk.length < 16, unpad16 (pad chunk h) = .ok chunk) ∧
    (unpad16 last = .ok chunk → ∃ h : chunk.length < 16, pad chunk h = last)

/-- R135: the four laws of the segmenter. -/
def Obligations.SegmenterLaws : Prop :=
  (∀ buf : List Byte, (concat (split buf)).length = 16 * (buf.length / 16 + 1)) ∧
  (∀ (buf : List Byte) (h : split buf ≠ []), join (split buf) h = .ok buf) ∧
  (∀ blocks : List Block, ctsplit (concat blocks) = blocks) ∧
  (∀ buf : List Byte, buf.length % 16 = 0 → concat (ctsplit buf) = buf) ∧
  (∀ buf buf' : List Byte, split buf = split buf' → buf = buf')

/-- R131: block `i` fetched with padding from `IBUF` is element `i` of `SPLIT` of the message, and `SPLIT` has `NBLK`
elements. -/
def Obligations.PlaintextFetchIsSplit : Prop :=
  ∀ s : State, (split s.message).length = s.ilen.toNat / 16 + 1 ∧
    ∀ i, i < s.ilen.toNat / 16 + 1 → (split s.message)[i]? = some (plaintextBlock s i)

/-- R156: the encrypt chain answers `Ok(es)` exactly when `es` satisfies the defining recurrence, each block being
enciphered after the XOR with the IV or the ciphertext block before it. -/
def Obligations.EncryptChainIsTheRecurrence : Prop :=
  ∀ (P : Platform) (key : Key) (iv : Block) (bs es : List Block),
    (encChain P key iv bs).2 = .ok es ↔
      es.length = bs.length ∧
      ∀ (i : Nat) (b e : Block), bs[i]? = some b → es[i]? = some e →
        P.cipherEnc key (xorBlock b (((iv :: es)[i]?).getD iv)) = .ok e

/-- R157: the decrypt chain answers `Ok(ps)` exactly when each block is the deciphered ciphertext block XOR the IV or the
ciphertext block before it. -/
def Obligations.DecryptChainIsTheRecurrence : Prop :=
  ∀ (P : Platform) (key : Key) (iv : Block) (cs ps : List Block),
    (decChain P key iv cs).2 = .ok ps ↔
      ps.length = cs.length ∧
      ∀ (i : Nat) (c p : Block), cs[i]? = some c → ps[i]? = some p →
        ∃ d, P.cipherDec key c = .ok d ∧ p = xorBlock d (((iv :: cs)[i]?).getD iv)

/-- R157: the requests of a decrypt chain do not depend on the IV, and a wrong IV changes the first plaintext block
only. -/
def Obligations.WrongIvChangesOnlyTheFirstBlock : Prop :=
  ∀ (P : Platform) (key : Key) (iv iv' : Block) (cs : List Block),
    (decChain P key iv cs).1 = (decChain P key iv' cs).1 ∧
    (∀ ce, (decChain P key iv cs).2 = .error ce → (decChain P key iv' cs).2 = .error ce) ∧
    ∀ ps, (decChain P key iv cs).2 = .ok ps → ∃ ps', (decChain P key iv' cs).2 = .ok ps' ∧ ps'.tail = ps.tail

/-- R159: a chain in which a request fails stops at once: it made `i + 1` requests for some block index `i`, the last
one is the failing one and every earlier one succeeded; for both chains. -/
def Obligations.ChainsStopAtTheFirstFailure : Prop :=
  ∀ (P : Platform) (key : Key) (iv : Block) (bs : List Block) (calls : List CipherCall) (ce : CipherError),
    (encChain P key iv bs = (calls, .error ce) ∨ decChain P key iv bs = (calls, .error ce)) →
    ∃ i, i < bs.length ∧ calls.length = i + 1 ∧
      (∀ (j : Nat) (c : CipherCall), j < i → calls[j]? = some c → ∃ out, c.result = .ok out) ∧
      ∀ c, calls[i]? = some c → c.result = .err ce

/-- R160: under `CipherInverse` the decrypt chain inverts the encrypt chain. -/
def Obligations.DecryptChainInvertsEncryptChain : Prop :=
  ∀ (P : Platform) (key : Key) (iv : Block) (bs es : List Block), P.CipherInverse →
    (encChain P key iv bs).2 = .ok es → (decChain P key iv es).2 = .ok bs

/-- R208: which applications of the capability a command makes: how many, in which direction, with which key, on which
blocks. -/
def Obligations.CapabilityUseOfEachCommand : Prop :=
  ∀ (P : Platform) (msg : List Byte) (key : Key) (iv : Block),
    (∀ calls out, facadeEncrypt P msg (some key) (some iv) = (calls, .ok out) →
      calls.length = msg.length / 16 + 1 ∧
      ∀ (i : Nat) (c : CipherCall), calls[i]? = some c → c.dir = .enc ∧ c.key = key ∧
        ∃ b, (split msg)[i]? = some b ∧ c.blockIn = xorBlock b (((iv :: ctsplit out)[i]?).getD iv)) ∧
    (∀ calls r, facadeDecrypt P msg (some key) (some iv) = (calls, r) →
      (r = .error .invalidPadding ∨ ∃ out, r = .ok out) →
      calls.length = msg.length / 16 ∧
      ∀ (i : Nat) (c : CipherCall), calls[i]? = some c → c.dir = .dec ∧ c.key = key ∧ (ctsplit msg)[i]? = some c.blockIn)

/-- R203: under `CipherInverse`, `Decrypt` of what `Encrypt` returns gives the plaintext back, for every plaintext, key
and IV. -/
def Obligations.FacadeRoundTrip : Prop :=
  ∀ (P : Platform) (msg out : List Byte) (key : Key) (iv : Block) (calls : List CipherCall), P.CipherInverse →
    facadeEncrypt P msg (some key) (some iv) = (calls, .ok out) →
    ∃ calls', facadeDecrypt P out (some key) (some iv) = (calls', .ok msg)
end

