-- ==== Sys2Proof/Laws/Memory.lean ====
section
/-! SUPPORT. The laws of the sparse byte memories: a read after a write, and that every operation keeps the canonical
form and the bound on indices. -/

namespace Sys2Proof.Machine

@[simp] theorem Memory.empty_cells : Memory.empty.cells = [] := rfl

@[simp] theorem Memory.empty_read (a : Nat) : Memory.empty.read a = 0 := rfl

@[simp] theorem Memory.empty_wf : Memory.empty.wf := ⟨List.Pairwise.nil, by simp [Memory.empty]⟩

@[simp] theorem Memory.empty_below (n : Nat) : Memory.empty.Below n := by simp [Memory.empty]

@[simp] theorem unlistedByte_eq : unlistedByte = (0 : Byte) := rfl

/-! ### One byte -/

/-- The cells are sorted and every one of them stands above `lo`. -/
abbrev Above (lo : Nat) (cells : List Host.Cell) : Prop := ∀ c ∈ cells, lo < c.1

theorem readCells_of_above {a : Nat} : ∀ {cells : List Host.Cell}, Above a cells → readCells cells a = 0
  | [], _ => rfl
  | (b, w) :: rest, h => by
    have hb : a < b := h (b, w) (by simp)
    have hr : Above a rest := fun c hc => h c (by simp [hc])
    simp [readCells, Nat.ne_of_lt hb, readCells_of_above hr]

theorem readCells_consCell (a : Nat) (v : Byte) {rest : List Host.Cell} (h : Above a rest) (x : Nat) :
    readCells (consCell a v rest) x = if x = a then v else readCells rest x := by
  unfold consCell
  split
  · rename_i hv
    split
    · rename_i hx; subst hx; rw [readCells_of_above h, hv]; rfl
    · rfl
  · rfl

theorem readCells_writeCells (a : Nat) (v : Byte) :
    ∀ {cells : List Host.Cell}, cells.Pairwise (fun c d => c.1 < d.1) → ∀ x,
      readCells (writeCells cells a v) x = if x = a then v else readCells cells x
  | [], _, x => by simp [writeCells, readCells_consCell a v (rest := []) (by simp), readCells]
  | (b, w) :: rest, h, x => by
    have hrest := List.pairwise_cons.1 h
    unfold writeCells
    split
    · rename_i hab
      apply readCells_consCell
      intro c hc
      rcases List.mem_cons.1 hc with rfl | hc
      · exact hab
      · exact Nat.lt_trans hab (hrest.1 c hc)
    · split
      · rename_i hab; subst hab
        rw [readCells_consCell a v hrest.1]
        by_cases hx : x = a <;> simp [readCells, hx]
      · rename_i hab
        simp only [readCells]
        by_cases hxb : x = b
        · subst hxb; simp [Ne.symm hab]
        · simp [hxb, readCells_writeCells a v hrest.2 x]

/-- A read after a write: the byte written, and every other byte as before. -/
theorem Memory.read_write {m : Memory} (h : m.wf) (a : Nat) (v : Byte) (x : Nat) :
    (m.write a v).read x = if x = a then v else m.read x :=
  readCells_writeCells a v h.1 x

theorem mem_consCell {a : Nat} {v : Byte} {rest : List Host.Cell} {c : Host.Cell} (h : c ∈ consCell a v rest) :
    (c = (a, v) ∧ v ≠ 0) ∨ c ∈ rest := by
  unfold consCell at h
  split at h
  · exact .inr h
  · rename_i hv
    rcases List.mem_cons.1 h with rfl | h
    · exact .inl ⟨rfl, hv⟩
    · exact .inr h

theorem mem_writeCells {a : Nat} {v : Byte} : ∀ {cells : List Host.Cell} {c : Host.Cell},
    c ∈ writeCells cells a v → (c = (a, v) ∧ v ≠ 0) ∨ c ∈ cells
  | [], _, h => mem_consCell h
  | (b, w) :: rest, c, h => by
    unfold writeCells at h
    split at h
    · exact mem_consCell h
    · split at h
      · rcases mem_consCell h with h | h
        · exact .inl h
        · exact .inr (by simp [h])
      · rcases List.mem_cons.1 h with h | h
        · exact .inr (by simp [h])
        · rcases mem_writeCells h with h | h
          · exact .inl h
          · exact .inr (by simp [h])

theorem pairwise_consCell {a : Nat} {v : Byte} {rest : List Host.Cell}
    (hr : rest.Pairwise (fun c d => c.1 < d.1)) (ha : Above a rest) :
    (consCell a v rest).Pairwise (fun c d => c.1 < d.1) := by
  unfold consCell
  split
  · exact hr
  · exact List.pairwise_cons.2 ⟨ha, hr⟩

theorem pairwise_writeCells (a : Nat) (v : Byte) : ∀ {cells : List Host.Cell},
    cells.Pairwise (fun c d => c.1 < d.1) → (writeCells cells a v).Pairwise (fun c d => c.1 < d.1)
  | [], _ => pairwise_consCell List.Pairwise.nil (by simp)
  | (b, w) :: rest, h => by
    have hrest := List.pairwise_cons.1 h
    unfold writeCells
    split
    · rename_i hab
      refine pairwise_consCell h ?_
      intro c hc
      rcases List.mem_cons.1 hc with rfl | hc
      · exact hab
      · exact Nat.lt_trans hab (hrest.1 c hc)
    · split
      · rename_i hab; subst hab; exact pairwise_consCell hrest.2 hrest.1
      · rename_i h1 h2
        refine List.pairwise_cons.2 ⟨?_, pairwise_writeCells a v hrest.2⟩
        intro c hc
        rcases mem_writeCells hc with ⟨rfl, _⟩ | hc
        · simp only; omega
        · exact hrest.1 c hc

/-- A write keeps the canonical form. -/
theorem Memory.write_wf {m : Memory} (h : m.wf) (a : Nat) (v : Byte) : (m.write a v).wf := by
  refine ⟨pairwise_writeCells a v h.1, ?_⟩
  intro c hc
  rcases mem_writeCells hc with ⟨rfl, hv⟩ | hc
  · exact hv
  · exact h.2 c hc

/-- A write below the bound keeps the bound. -/
theorem Memory.write_below {m : Memory} {n : Nat} (h : m.Below n) {a : Nat} (ha : a < n) (v : Byte) :
    (m.write a v).Below n := by
  intro c hc
  rcases mem_writeCells hc with ⟨rfl, _⟩ | hc
  · exact ha
  · exact h c hc

theorem Memory.below_mono {m : Memory} {n k : Nat} (h : m.Below n) (hk : n ≤ k) : m.Below k :=
  fun c hc => Nat.lt_of_lt_of_le (h c hc) hk

theorem readCells_eq_zero_of_not_mem : ∀ {cells : List Host.Cell} {a : Nat},
    (∀ c ∈ cells, c.1 ≠ a) → readCells cells a = 0
  | [], _, _ => rfl
  | (b, w) :: rest, a, h => by
    have hb : ¬ a = b := fun e => h (b, w) (by simp) e.symm
    have hr : readCells rest a = 0 := readCells_eq_zero_of_not_mem fun c hc => h c (List.mem_cons_of_mem _ hc)
    simp [readCells, hb, hr]

/-- From the bound on, every byte reads zero. -/
theorem Memory.read_of_below {m : Memory} {n a : Nat} (h : m.Below n) (ha : n ≤ a) : m.read a = 0 :=
  readCells_eq_zero_of_not_mem fun c hc e => by have := h c hc; omega

theorem readCells_of_mem {a : Nat} {v : Byte} : ∀ {cells : List Host.Cell},
    cells.Pairwise (fun c d => c.1 < d.1) → (a, v) ∈ cells → readCells cells a = v
  | (b, w) :: rest, h, hm => by
    have hrest := List.pairwise_cons.1 h
    rcases List.mem_cons.1 hm with e | hm
    · cases e; simp [readCells]
    · have hb : b < a := hrest.1 _ hm
      simp [readCells, Nat.ne_of_gt hb, readCells_of_mem hrest.2 hm]

/-- Conversely, a canonical memory that reads zero from `n` on lists nothing there. -/
theorem Memory.below_of_read {m : Memory} {n : Nat} (h : m.wf) (hz : ∀ a, n ≤ a → m.read a = 0) : m.Below n := by
  intro c hc
  by_contra hn
  have h1 := readCells_of_mem h.1 hc
  exact h.2 c hc (by rw [← h1]; exact hz c.1 (by omega))

theorem cells_ext : ∀ {l r : List Host.Cell}, l.Pairwise (fun c d => c.1 < d.1) → r.Pairwise (fun c d => c.1 < d.1) →
    (∀ c ∈ l, c.2 ≠ 0) → (∀ c ∈ r, c.2 ≠ 0) → (∀ a, readCells l a = readCells r a) → l = r
  | [], [], _, _, _, _, _ => rfl
  | [], (b, w) :: r, _, _, _, hr, h => by
    have := h b; simp [readCells] at this; exact absurd this.symm (hr (b, w) (by simp))
  | (b, w) :: l, [], _, _, hl, _, h => by
    have := h b; simp [readCells] at this; exact absurd this (hl (b, w) (by simp))
  | (b, w) :: l, (b', w') :: r, pl, pr, hl, hr, h => by
    have pl' := List.pairwise_cons.1 pl
    have pr' := List.pairwise_cons.1 pr
    have hw := hl (b, w) (by simp)
    have hw' := hr (b', w') (by simp)
    have hbb : b = b' := by
      rcases Nat.lt_trichotomy b b' with hlt | heq | hgt
      · have := h b
        have hz : readCells ((b', w') :: r) b = 0 := readCells_of_above (by
          intro c hc
          rcases List.mem_cons.1 hc with rfl | hc
          · exact hlt
          · exact Nat.lt_trans hlt (pr'.1 c hc))
        rw [hz] at this; simp [readCells] at this; exact absurd this hw
      · exact heq
      · have := h b'
        have hz : readCells ((b, w) :: l) b' = 0 := readCells_of_above (by
          intro c hc
          rcases List.mem_cons.1 hc with rfl | hc
          · exact hgt
          · exact Nat.lt_trans hgt (pl'.1 c hc))
        rw [hz] at this; simp [readCells] at this; exact absurd this.symm hw'
    subst hbb
    have hww : w = w' := by have := h b; simpa [readCells] using this
    subst hww
    congr 1
    refine cells_ext pl'.2 pr'.2 (fun c hc => hl c (by simp [hc])) (fun c hc => hr c (by simp [hc])) fun a => ?_
    by_cases ha : a = b
    · subst ha
      rw [readCells_of_above pl'.1, readCells_of_above pr'.1]
    · have := h a; simpa [readCells, ha] using this

/-- Canonical memories with the same bytes are equal data. -/
theorem Memory.ext_read {m k : Memory} (hm : m.wf) (hk : k.wf) (h : ∀ a, m.read a = k.read a) : m = k := by
  cases m; cases k
  exact congrArg Memory.mk (cells_ext hm.1 hk.1 hm.2 hk.2 h)

/-! ### Byte sequences and blocks -/

theorem Memory.writeBytes_wf (bs : List Byte) : ∀ {m : Memory}, m.wf → ∀ a, (m.writeBytes a bs).wf := by
  induction bs with
  | nil => intro m h a; exact h
  | cons v rest ih => intro m h a; exact ih (Memory.write_wf h a v) (a + 1)

/-- What a read sees after `bs` has been written from `a` on. -/
theorem Memory.read_writeBytes (bs : List Byte) : ∀ {m : Memory}, m.wf → ∀ a x,
    (m.writeBytes a bs).read x = if a ≤ x then (bs[x - a]?).getD (m.read x) else m.read x := by
  induction bs with
  | nil => intro m h a x; simp [Memory.writeBytes]
  | cons v rest ih =>
    intro m h a x
    rw [Memory.writeBytes, ih (Memory.write_wf h a v), Memory.read_write h]
    by_cases h1 : a ≤ x
    · by_cases h2 : x = a
      · subst h2; simp
      · have h3 : a + 1 ≤ x := by omega
        have h4 : x - a = (x - (a + 1)) + 1 := by omega
        simp [h1, h2, h3, h4]
    · have h3 : ¬ a + 1 ≤ x := by omega
      have h2 : ¬ x = a := by omega
      simp [h1, h2, h3]

theorem Memory.writeBytes_below (bs : List Byte) : ∀ {m : Memory} {n a : Nat}, m.Below n → a + bs.length ≤ n →
    (m.writeBytes a bs).Below n := by
  induction bs with
  | nil => intro m n a h _; exact h
  | cons v rest ih =>
    intro m n a h hn
    simp only [List.length_cons] at hn
    exact ih (Memory.write_below h (by omega) v) (by omega)

@[simp] theorem Memory.length_readBytes (m : Memory) (a n : Nat) : (m.readBytes a n).length = n := by
  simp [Memory.readBytes]

@[simp] theorem Memory.getElem_readBytes (m : Memory) (a n k : Nat) (h : k < (m.readBytes a n).length) :
    (m.readBytes a n)[k] = m.read (a + k) := by simp [Memory.readBytes]

@[simp] theorem Memory.getElem_readBlock (m : Memory) (a j : Nat) (h : j < 16) :
    (m.readBlock a)[j] = m.read (a + j) := by simp [Memory.readBlock]

theorem Memory.writeBlock_wf {m : Memory} (h : m.wf) (a : Nat) (b : Block) : (m.writeBlock a b).wf :=
  Memory.writeBytes_wf b.toList h a

/-- What a read sees after a block has been stored at `a`. -/
theorem Memory.read_writeBlock {m : Memory} (h : m.wf) (a : Nat) (b : Block) (x : Nat) :
    (m.writeBlock a b).read x = if hx : a ≤ x ∧ x < a + 16 then b[x - a] else m.read x := by
  rw [Memory.writeBlock, Memory.read_writeBytes b.toList h]
  by_cases h1 : a ≤ x
  · by_cases h2 : x < a + 16
    · have h3 : x - a < b.toList.length := by simp; omega
      simp [h1, h2, List.getElem?_eq_getElem h3]
    · have h3 : b.toList.length ≤ x - a := by simp; omega
      simp [h1, h2, List.getElem?_eq_none h3]
  · simp [h1]

theorem Memory.writeBlock_below {m : Memory} {n a : Nat} (h : m.Below n) (ha : a + 16 ≤ n) (b : Block) :
    (m.writeBlock a b).Below n :=
  Memory.writeBytes_below b.toList h (by simpa using ha)

end Sys2Proof.Machine
end

