-- ==== Sys2Proof/Laws/State.lean ====
section
/-! SUPPORT. One lemma per field per update of the state: START, FAIL, COMMIT, a record added to the trace or to the reads,
and reset. -/

namespace Sys2Proof.Machine

@[simp] theorem Status.running_busy : Status.running.busy = true := rfl
@[simp] theorem Status.running_done : Status.running.done = false := rfl
@[simp] theorem Status.running_code : Status.running.code = .ok := rfl
@[simp] theorem Status.completed_busy (code : ResultCode) : (Status.completed code).busy = false := rfl
@[simp] theorem Status.completed_done (code : ResultCode) : (Status.completed code).done = true := rfl
@[simp] theorem Status.completed_code (code : ResultCode) : (Status.completed code).code = code := rfl

@[simp] theorem start_key (w : Word) (s : State) : (start w s).key = s.key := rfl
@[simp] theorem start_iv (w : Word) (s : State) : (start w s).iv = s.iv := rfl
@[simp] theorem start_ibuf (w : Word) (s : State) : (start w s).ibuf = s.ibuf := rfl
@[simp] theorem start_obuf (w : Word) (s : State) : (start w s).obuf = .empty := rfl
@[simp] theorem start_cmd (w : Word) (s : State) : (start w s).cmd = w := rfl
@[simp] theorem start_ilen (w : Word) (s : State) : (start w s).ilen = s.ilen := rfl
@[simp] theorem start_status (w : Word) (s : State) : (start w s).status = .running := rfl
@[simp] theorem start_olen (w : Word) (s : State) : (start w s).olen = 0 := rfl
@[simp] theorem start_cerr (w : Word) (s : State) : (start w s).cerr = 0 := rfl
@[simp] theorem start_phase (w : Word) (s : State) : (start w s).phase = .decode := rfl
@[simp] theorem start_blk (w : Word) (s : State) : (start w s).blk = 0 := rfl
@[simp] theorem start_nblk (w : Word) (s : State) : (start w s).nblk = 0 := rfl
@[simp] theorem start_chain (w : Word) (s : State) : (start w s).chain = zeroBlock := rfl
@[simp] theorem start_wlen (w : Word) (s : State) : (start w s).wlen = 0 := rfl
@[simp] theorem start_trace (w : Word) (s : State) : (start w s).trace = s.trace := rfl
@[simp] theorem start_reads (w : Word) (s : State) : (start w s).reads = s.reads := rfl
@[simp] theorem start_pending (w : Word) (s : State) : (start w s).pending = s.pending := rfl
@[simp] theorem start_msgLen (w : Word) (s : State) : (start w s).msgLen = s.msgLen := rfl

@[simp] theorem fail_key (code : ResultCode) (ce : CipherError) (s : State) : (fail code ce s).key = s.key := rfl
@[simp] theorem fail_iv (code : ResultCode) (ce : CipherError) (s : State) : (fail code ce s).iv = s.iv := rfl
@[simp] theorem fail_ibuf (code : ResultCode) (ce : CipherError) (s : State) : (fail code ce s).ibuf = s.ibuf := rfl
@[simp] theorem fail_obuf (code : ResultCode) (ce : CipherError) (s : State) : (fail code ce s).obuf = .empty := rfl
@[simp] theorem fail_cmd (code : ResultCode) (ce : CipherError) (s : State) : (fail code ce s).cmd = s.cmd := rfl
@[simp] theorem fail_ilen (code : ResultCode) (ce : CipherError) (s : State) : (fail code ce s).ilen = s.ilen := rfl
@[simp] theorem fail_status (code : ResultCode) (ce : CipherError) (s : State) : (fail code ce s).status = .completed code := rfl
@[simp] theorem fail_olen (code : ResultCode) (ce : CipherError) (s : State) : (fail code ce s).olen = 0 := rfl
@[simp] theorem fail_cerr (code : ResultCode) (ce : CipherError) (s : State) : (fail code ce s).cerr = ce := rfl
@[simp] theorem fail_phase (code : ResultCode) (ce : CipherError) (s : State) : (fail code ce s).phase = .idle := rfl
@[simp] theorem fail_blk (code : ResultCode) (ce : CipherError) (s : State) : (fail code ce s).blk = 0 := rfl
@[simp] theorem fail_nblk (code : ResultCode) (ce : CipherError) (s : State) : (fail code ce s).nblk = 0 := rfl
@[simp] theorem fail_chain (code : ResultCode) (ce : CipherError) (s : State) : (fail code ce s).chain = zeroBlock := rfl
@[simp] theorem fail_wlen (code : ResultCode) (ce : CipherError) (s : State) : (fail code ce s).wlen = 0 := rfl
@[simp] theorem fail_trace (code : ResultCode) (ce : CipherError) (s : State) : (fail code ce s).trace = s.trace := rfl
@[simp] theorem fail_reads (code : ResultCode) (ce : CipherError) (s : State) : (fail code ce s).reads = s.reads := rfl
@[simp] theorem fail_pending (code : ResultCode) (ce : CipherError) (s : State) : (fail code ce s).pending = s.pending := rfl
@[simp] theorem fail_msgLen (code : ResultCode) (ce : CipherError) (s : State) : (fail code ce s).msgLen = s.msgLen := rfl

@[simp] theorem commit_key (s : State) : (commit s).key = s.key := rfl
@[simp] theorem commit_iv (s : State) : (commit s).iv = s.iv := rfl
@[simp] theorem commit_ibuf (s : State) : (commit s).ibuf = s.ibuf := rfl
@[simp] theorem commit_obuf (s : State) : (commit s).obuf = s.obuf := rfl
@[simp] theorem commit_cmd (s : State) : (commit s).cmd = s.cmd := rfl
@[simp] theorem commit_ilen (s : State) : (commit s).ilen = s.ilen := rfl
@[simp] theorem commit_status (s : State) : (commit s).status = .completed .ok := rfl
@[simp] theorem commit_olen (s : State) : (commit s).olen = BitVec.ofNat 32 s.wlen := rfl
@[simp] theorem commit_cerr (s : State) : (commit s).cerr = s.cerr := rfl
@[simp] theorem commit_phase (s : State) : (commit s).phase = .idle := rfl
@[simp] theorem commit_blk (s : State) : (commit s).blk = 0 := rfl
@[simp] theorem commit_nblk (s : State) : (commit s).nblk = 0 := rfl
@[simp] theorem commit_chain (s : State) : (commit s).chain = zeroBlock := rfl
@[simp] theorem commit_wlen (s : State) : (commit s).wlen = 0 := rfl
@[simp] theorem commit_trace (s : State) : (commit s).trace = s.trace := rfl
@[simp] theorem commit_reads (s : State) : (commit s).reads = s.reads := rfl
@[simp] theorem commit_pending (s : State) : (commit s).pending = s.pending := rfl
@[simp] theorem commit_msgLen (s : State) : (commit s).msgLen = s.msgLen := rfl

@[simp] theorem emit_key (c : CipherCall) (s : State) : (emit c s).key = s.key := rfl
@[simp] theorem emit_iv (c : CipherCall) (s : State) : (emit c s).iv = s.iv := rfl
@[simp] theorem emit_ibuf (c : CipherCall) (s : State) : (emit c s).ibuf = s.ibuf := rfl
@[simp] theorem emit_obuf (c : CipherCall) (s : State) : (emit c s).obuf = s.obuf := rfl
@[simp] theorem emit_cmd (c : CipherCall) (s : State) : (emit c s).cmd = s.cmd := rfl
@[simp] theorem emit_ilen (c : CipherCall) (s : State) : (emit c s).ilen = s.ilen := rfl
@[simp] theorem emit_status (c : CipherCall) (s : State) : (emit c s).status = s.status := rfl
@[simp] theorem emit_olen (c : CipherCall) (s : State) : (emit c s).olen = s.olen := rfl
@[simp] theorem emit_cerr (c : CipherCall) (s : State) : (emit c s).cerr = s.cerr := rfl
@[simp] theorem emit_phase (c : CipherCall) (s : State) : (emit c s).phase = s.phase := rfl
@[simp] theorem emit_blk (c : CipherCall) (s : State) : (emit c s).blk = s.blk := rfl
@[simp] theorem emit_nblk (c : CipherCall) (s : State) : (emit c s).nblk = s.nblk := rfl
@[simp] theorem emit_chain (c : CipherCall) (s : State) : (emit c s).chain = s.chain := rfl
@[simp] theorem emit_wlen (c : CipherCall) (s : State) : (emit c s).wlen = s.wlen := rfl
@[simp] theorem emit_trace (c : CipherCall) (s : State) : (emit c s).trace = s.trace ++ [c] := rfl
@[simp] theorem emit_reads (c : CipherCall) (s : State) : (emit c s).reads = s.reads := rfl
@[simp] theorem emit_pending (c : CipherCall) (s : State) : (emit c s).pending = s.pending := rfl
@[simp] theorem emit_msgLen (c : CipherCall) (s : State) : (emit c s).msgLen = s.msgLen := rfl

@[simp] theorem recordRead_key (r : HostRead) (s : State) : (recordRead r s).key = s.key := rfl
@[simp] theorem recordRead_iv (r : HostRead) (s : State) : (recordRead r s).iv = s.iv := rfl
@[simp] theorem recordRead_ibuf (r : HostRead) (s : State) : (recordRead r s).ibuf = s.ibuf := rfl
@[simp] theorem recordRead_obuf (r : HostRead) (s : State) : (recordRead r s).obuf = s.obuf := rfl
@[simp] theorem recordRead_cmd (r : HostRead) (s : State) : (recordRead r s).cmd = s.cmd := rfl
@[simp] theorem recordRead_ilen (r : HostRead) (s : State) : (recordRead r s).ilen = s.ilen := rfl
@[simp] theorem recordRead_status (r : HostRead) (s : State) : (recordRead r s).status = s.status := rfl
@[simp] theorem recordRead_olen (r : HostRead) (s : State) : (recordRead r s).olen = s.olen := rfl
@[simp] theorem recordRead_cerr (r : HostRead) (s : State) : (recordRead r s).cerr = s.cerr := rfl
@[simp] theorem recordRead_phase (r : HostRead) (s : State) : (recordRead r s).phase = s.phase := rfl
@[simp] theorem recordRead_blk (r : HostRead) (s : State) : (recordRead r s).blk = s.blk := rfl
@[simp] theorem recordRead_nblk (r : HostRead) (s : State) : (recordRead r s).nblk = s.nblk := rfl
@[simp] theorem recordRead_chain (r : HostRead) (s : State) : (recordRead r s).chain = s.chain := rfl
@[simp] theorem recordRead_wlen (r : HostRead) (s : State) : (recordRead r s).wlen = s.wlen := rfl
@[simp] theorem recordRead_trace (r : HostRead) (s : State) : (recordRead r s).trace = s.trace := rfl
@[simp] theorem recordRead_reads (r : HostRead) (s : State) : (recordRead r s).reads = s.reads ++ [r] := rfl
@[simp] theorem recordRead_pending (r : HostRead) (s : State) : (recordRead r s).pending = s.pending := rfl
@[simp] theorem recordRead_msgLen (r : HostRead) (s : State) : (recordRead r s).msgLen = s.msgLen := rfl

@[simp] theorem resetEngine_key (s : State) : (resetEngine s).key = Vector.replicate 32 0 := rfl
@[simp] theorem resetEngine_iv (s : State) : (resetEngine s).iv = Vector.replicate 16 0 := rfl
@[simp] theorem resetEngine_ibuf (s : State) : (resetEngine s).ibuf = .empty := rfl
@[simp] theorem resetEngine_obuf (s : State) : (resetEngine s).obuf = .empty := rfl
@[simp] theorem resetEngine_cmd (s : State) : (resetEngine s).cmd = 0 := rfl
@[simp] theorem resetEngine_ilen (s : State) : (resetEngine s).ilen = 0 := rfl
@[simp] theorem resetEngine_status (s : State) : (resetEngine s).status = ⟨false, false, .ok⟩ := rfl
@[simp] theorem resetEngine_olen (s : State) : (resetEngine s).olen = 0 := rfl
@[simp] theorem resetEngine_cerr (s : State) : (resetEngine s).cerr = 0 := rfl
@[simp] theorem resetEngine_phase (s : State) : (resetEngine s).phase = .idle := rfl
@[simp] theorem resetEngine_blk (s : State) : (resetEngine s).blk = 0 := rfl
@[simp] theorem resetEngine_nblk (s : State) : (resetEngine s).nblk = 0 := rfl
@[simp] theorem resetEngine_chain (s : State) : (resetEngine s).chain = Vector.replicate 16 0 := rfl
@[simp] theorem resetEngine_wlen (s : State) : (resetEngine s).wlen = 0 := rfl
@[simp] theorem resetEngine_trace (s : State) : (resetEngine s).trace = s.trace := rfl
@[simp] theorem resetEngine_reads (s : State) : (resetEngine s).reads = s.reads := rfl
@[simp] theorem resetEngine_pending (s : State) : (resetEngine s).pending = s.pending := rfl

end Sys2Proof.Machine
end

