-- ==== Sys2Proof/Laws/Ops.lean ====
section
/-! SUPPORT. For each shared operation one lemma that says everything it can do: operand fetches, the codec, the chain
steps, the engine steps of both commands, and the host accesses. -/

namespace Sys2Proof

/-! ### Parameters -/

theorem Platform.bufcap_bounds (P : Platform) : 16 ≤ P.bufcap ∧ P.bufcap % 16 = 0 ∧ P.bufcap ≤ 4294967280 := by
  have := P.extraBlocks.isLt
  unfold Platform.bufcap
  omega

end Sys2Proof

namespace Sys2Proof.Machine

/-! ### Operands -/

@[simp] theorem getElem_xorBlock (a b : Block) (j : Nat) (h : j < 16) : (xorBlock a b)[j] = a[j] ^^^ b[j] := by
  simp [xorBlock]

theorem getElem_plaintextBlock (s : State) (i j : Nat) (h : j < 16) :
    (plaintextBlock s i)[j] =
      if 16 * i + j < s.msgLen then s.ibuf.read (16 * i + j) else BitVec.ofNat 8 (padSize s.msgLen) := by
  simp [plaintextBlock]

@[simp] theorem getElem_ciphertextBlock (s : State) (i j : Nat) (h : j < 16) :
    (ciphertextBlock s i)[j] = s.ibuf.read (16 * i + j) := by
  simp [ciphertextBlock]

@[simp] theorem length_message (s : State) : s.message.length = s.msgLen := by simp [State.message]

theorem getElem?_message (s : State) (k : Nat) :
    s.message[k]? = if k < s.msgLen then some (s.ibuf.read k) else none := by
  simp only [State.message, Memory.readBytes]
  split <;> rename_i h
  · simp [h]
  · simp [Nat.not_lt.1 h]

/-- There is a key operand exactly when the length is valid, and it is that many bytes of the store. -/
theorem keyOperand_eq_some {store : Vector Byte 32} {klen : Nat} {key : Key} :
    keyOperand store klen = some key ↔ ValidKeyLength klen ∧ key.bytes = store.toList.take klen := by
  unfold keyOperand
  split
  · rename_i h
    constructor
    · intro e; cases e; exact ⟨h, rfl⟩
    · rintro ⟨_, hk⟩; cases key; simp only at hk; subst hk; rfl
  · rename_i h; simp [h]

theorem keyOperand_isSome {store : Vector Byte 32} {klen : Nat} (h : ValidKeyLength klen) :
    ∃ key, keyOperand store klen = some key := by
  unfold keyOperand; simp [h]

theorem ivOperand_eq_some {store iv : Block} {ivlen : Nat} :
    ivOperand store ivlen = some iv ↔ ivlen = 16 ∧ iv = store := by
  unfold ivOperand; split <;> simp_all [eq_comm]

/-! ### The codec -/

/-- A block names a pad length exactly when its padding is well formed. -/
theorem padLength_eq_some {last : Block} {n : Nat} :
    padLength last = some n ↔
      last[15].toNat = n ∧ 1 ≤ n ∧ n ≤ 16 ∧ ∀ j : Fin 16, 16 - n ≤ j.val → last[j] = last[15] := by
  unfold padLength
  simp only
  split
  · rename_i h
    constructor
    · intro e; cases e
    · rintro ⟨rfl, h1, h2, h3⟩
      rcases h with h | h | ⟨j, h, hne⟩
      · omega
      · omega
      · exact absurd (h3 j h) hne
  · rename_i h
    simp only [not_or, not_exists, not_and, ne_eq, not_not, Nat.not_lt, gt_iff_lt] at h
    constructor
    · intro e; cases e; exact ⟨rfl, by omega, h.2.1, h.2.2⟩
    · rintro ⟨rfl, _⟩; rfl

theorem padLength_eq_none {last : Block} :
    padLength last = none ↔
      last[15].toNat = 0 ∨ last[15].toNat > 16 ∨
        ∃ j : Fin 16, 16 - last[15].toNat ≤ j.val ∧ last[j] ≠ last[15] := by
  unfold padLength
  simp only
  split
  · rename_i h; exact ⟨fun _ => h, fun _ => rfl⟩
  · rename_i h; exact ⟨(by intro e; cases e), fun h' => absurd h' h⟩

@[simp] theorem getElem_pad (chunk : List Byte) (h : chunk.length < 16) (j : Nat) (hj : j < 16) :
    (pad chunk h)[j] = (chunk[j]?).getD (BitVec.ofNat 8 (padSize chunk.length)) := by
  simp [pad]

@[simp] theorem getElem_fullBlock (buf : List Byte) (k j : Nat) (hj : j < 16) :
    (fullBlock buf k)[j] = (buf[16 * k + j]?).getD 0 := by
  simp [fullBlock]

/-! ### Chain steps -/

/-- ENCSTEP makes the one request `(ENC, key, b XOR state)`, and hands its answer on as block and as next state. -/
theorem encStep_cases (P : Platform) (key : Key) (state b : Block) :
    (∃ e, P.cipherEnc key (xorBlock b state) = .ok e ∧
      encStep P key state b = (⟨.enc, key, xorBlock b state, .ok e⟩, .ok e e)) ∨
    (∃ ce, P.cipherEnc key (xorBlock b state) = .err ce ∧
      encStep P key state b = (⟨.enc, key, xorBlock b state, .err ce⟩, .err ce)) := by
  unfold encStep
  cases h : P.cipherEnc key (xorBlock b state) with
  | ok e => exact .inl ⟨e, rfl, by simp [h]⟩
  | err ce => exact .inr ⟨ce, rfl, by simp [h]⟩

/-- DECSTEP makes the one request `(DEC, key, c)`, emits its answer XOR the state, and its next state is `c`. -/
theorem decStep_cases (P : Platform) (key : Key) (state c : Block) :
    (∃ d, P.cipherDec key c = .ok d ∧
      decStep P key state c = (⟨.dec, key, c, .ok d⟩, .ok (xorBlock d state) c)) ∨
    (∃ ce, P.cipherDec key c = .err ce ∧ decStep P key state c = (⟨.dec, key, c, .err ce⟩, .err ce)) := by
  unfold decStep
  cases P.cipherDec key c with
  | ok d => exact .inl ⟨d, rfl, rfl⟩
  | err ce => exact .inr ⟨ce, rfl, rfl⟩

/-! ### Engine steps -/

/-- The next state of an outcome that is known. -/
theorem eq_of_next_eq {s t : State} (h : (Host.Outcome.next s : Host.Outcome State Fault Refusal) = .next t) :
    t = s := by
  injection h with h; exact h.symm

/-- What one engine step of an ENCRYPT can do, when it answers a next state. -/
theorem encryptStep_cases {P : Platform} {klen ivlen : Nat} {s t : State}
    (h : encryptStep P klen ivlen s = .next t) :
    (s.phase = .idle ∧ t = s) ∨
    (s.phase = .decode ∧ t = encryptDecode P s) ∨
    (s.phase = .validate ∧ t = encryptValidate klen ivlen s) ∨
    (s.phase = .chain ∧ s.blk < s.nblk ∧ 16 * s.blk + 16 ≤ P.bufcap ∧
      ∃ key, keyOperand s.key klen = some key ∧ t = encryptRequest P key s) ∨
    (s.phase = .commit ∧ t = commit s) := by
  unfold encryptStep at h
  split at h <;> rename_i hp <;> simp only [hp, reduceCtorEq, false_and, false_or, or_false, true_and]
  · exact eq_of_next_eq h
  · exact eq_of_next_eq h
  · exact eq_of_next_eq h
  · cases h
  · unfold encryptChain at h
    split at h
    · cases h
    · split at h
      · cases h
      · split at h
        · cases h
        · rename_i h1 h2 _ key hk; exact ⟨Nat.lt_of_not_le h1, Nat.le_of_not_lt h2, key, hk, eq_of_next_eq h⟩
  · cases h
  · exact eq_of_next_eq h

/-- What one engine step of a DECRYPT can do, when it answers a next state. -/
theorem decryptStep_cases {P : Platform} {klen ivlen : Nat} {s t : State}
    (h : decryptStep P klen ivlen s = .next t) :
    (s.phase = .idle ∧ t = s) ∨
    (s.phase = .decode ∧ t = decryptDecode P s) ∨
    (s.phase = .validate ∧ t = decryptValidate klen ivlen s) ∨
    (s.phase = .lencheck ∧ t = decryptLencheck s) ∨
    (s.phase = .chain ∧ s.blk < s.nblk ∧ 16 * s.blk + 16 ≤ P.bufcap ∧
      ∃ key, keyOperand s.key klen = some key ∧ t = decryptRequest P key s) ∨
    (s.phase = .unpad ∧ 1 ≤ s.nblk ∧ 16 * s.nblk ≤ P.bufcap ∧ t = unpadLast s) ∨
    (s.phase = .commit ∧ t = commit s) := by
  unfold decryptStep at h
  split at h <;> rename_i hp <;> simp only [hp, reduceCtorEq, false_and, false_or, or_false, true_and]
  · exact eq_of_next_eq h
  · exact eq_of_next_eq h
  · exact eq_of_next_eq h
  · exact eq_of_next_eq h
  · unfold decryptChain at h
    split at h
    · cases h
    · split at h
      · cases h
      · split at h
        · cases h
        · rename_i h1 h2 _ key hk; exact ⟨Nat.lt_of_not_le h1, Nat.le_of_not_lt h2, key, hk, eq_of_next_eq h⟩
  · unfold decryptUnpad at h
    split at h
    · cases h
    · split at h
      · cases h
      · rename_i h1 h2; exact ⟨Nat.pos_of_ne_zero h1, Nat.le_of_not_lt h2, eq_of_next_eq h⟩
  · exact eq_of_next_eq h

/-- What one engine step under an illegal word can do, when it answers a next state. -/
theorem illegalStep_cases {s t : State} (h : illegalStep s = .next t) :
    (s.phase = .idle ∧ t = s) ∨ (s.phase = .decode ∧ t = fail .illegalCommand 0 s) ∨
    (s.phase = .commit ∧ t = commit s) := by
  unfold illegalStep at h
  split at h <;> rename_i hp <;> simp only [hp, reduceCtorEq, false_and, false_or, or_false, true_and] <;>
    first | exact eq_of_next_eq h | cases h

/-- What a CHAIN step of ENCRYPT leaves: the failure of its request, or the block stored. -/
theorem encryptRequest_cases (P : Platform) (key : Key) (s : State) :
    (∃ ce, P.cipherEnc key (xorBlock (plaintextBlock s s.blk) s.chain) = .err ce ∧
      encryptRequest P key s = fail .underlyingCipherFailure ce
        (emit ⟨.enc, key, xorBlock (plaintextBlock s s.blk) s.chain, .err ce⟩ s)) ∨
    (∃ e, P.cipherEnc key (xorBlock (plaintextBlock s s.blk) s.chain) = .ok e ∧
      encryptRequest P key s = encryptStore e e
        (emit ⟨.enc, key, xorBlock (plaintextBlock s s.blk) s.chain, .ok e⟩ s)) := by
  unfold encryptRequest
  rcases encStep_cases P key s.chain (plaintextBlock s s.blk) with ⟨e, h1, h2⟩ | ⟨ce, h1, h2⟩
  · right; exact ⟨e, h1, by rw [h2]⟩
  · left; exact ⟨ce, h1, by rw [h2]⟩

/-- What a CHAIN step of DECRYPT leaves: the failure of its request, or the block stored. -/
theorem decryptRequest_cases (P : Platform) (key : Key) (s : State) :
    (∃ ce, P.cipherDec key (ciphertextBlock s s.blk) = .err ce ∧
      decryptRequest P key s = fail .underlyingCipherFailure ce
        (emit ⟨.dec, key, ciphertextBlock s s.blk, .err ce⟩ s)) ∨
    (∃ d, P.cipherDec key (ciphertextBlock s s.blk) = .ok d ∧
      decryptRequest P key s = decryptStore (xorBlock d s.chain) (ciphertextBlock s s.blk)
        (emit ⟨.dec, key, ciphertextBlock s s.blk, .ok d⟩ s)) := by
  unfold decryptRequest
  rcases decStep_cases P key s.chain (ciphertextBlock s s.blk) with ⟨d, h1, h2⟩ | ⟨ce, h1, h2⟩
  · right; exact ⟨d, h1, by rw [h2]⟩
  · left; exact ⟨ce, h1, by rw [h2]⟩

/-- What the UNPAD step leaves: a padding failure, or the pad bytes stripped and the result length set. -/
theorem unpadLast_cases (s : State) :
    (padLength (lastBlock s) = none ∧ unpadLast s = fail .invalidPadding 0 s) ∨
    (∃ n, padLength (lastBlock s) = some n ∧
      unpadLast s = { s with
        obuf := s.obuf.writeBytes (16 * s.nblk - n) (List.replicate n 0x00), wlen := 16 * s.nblk - n
        phase := .commit }) := by
  unfold unpadLast
  cases h : padLength (lastBlock s) with
  | none => exact .inl ⟨rfl, rfl⟩
  | some n => exact .inr ⟨n, rfl, rfl⟩

/-- What an engine step can do, whatever the meaning of a command: nothing while idle, the command's step, or the step
under an illegal word. -/
theorem engineStep_cases {run : Instr → State → Host.Outcome State Fault Refusal} {s : State}
    {o : Host.Outcome State Fault Refusal} (h : engineStep run s = o) :
    (s.phase = .idle ∧ o = .next s) ∨
    (s.phase ≠ .idle ∧ ∃ i, decode s.cmd = .ok i ∧ o = run i s) ∨
    (s.phase ≠ .idle ∧ ∃ e, decode s.cmd = .error e ∧ o = illegalStep s) := by
  subst h
  by_cases hp : s.phase = .idle
  · left; simp [engineStep, hp]
  · right
    have he : engineStep run s =
        match decode s.cmd with
        | .ok i => run i s
        | .error _ => illegalStep s := by
      unfold engineStep; split
      · rename_i h; exact absurd h hp
      · rfl
    rw [he]
    cases hd : decode s.cmd with
    | ok i => exact .inl ⟨hp, i, rfl, rfl⟩
    | error e => exact .inr ⟨hp, e, rfl, rfl⟩

/-! ### Host accesses -/

/-- What a host write of a register can do (R63). -/
theorem hostWriteReg_cases (n : Nat) (v : Word) (s : State) :
    (s.status.busy = true ∧ hostWriteReg n v s = s) ∨
    (s.status.busy = false ∧ n = 0 ∧ hostWriteReg n v s = start v s) ∨
    (s.status.busy = false ∧ n = 1 ∧ hostWriteReg n v s = { s with ilen := v }) ∨
    (s.status.busy = false ∧ 2 ≤ n ∧ hostWriteReg n v s = s) := by
  unfold hostWriteReg
  cases hb : s.status.busy with
  | true => simp
  | false =>
    match n with
    | 0 => simp
    | 1 => simp
    | n + 2 => simp

/-- What a host write of a byte can do (R65, R68). -/
theorem hostWriteByte_cases (cap : Nat) (store : Store) (i : Nat) (v : Byte) (s : State) :
    hostWriteByte cap store i v s = s ∨
    (s.status.busy = false ∧
      ((store = .key ∧ i < 32 ∧ hostWriteByte cap store i v s = { s with key := s.key.setIfInBounds i v }) ∨
       (store = .iv ∧ i < 16 ∧ hostWriteByte cap store i v s = { s with iv := s.iv.setIfInBounds i v }) ∨
       (store = .ibuf ∧ i < cap ∧ hostWriteByte cap store i v s = { s with ibuf := s.ibuf.write i v }))) := by
  unfold hostWriteByte
  cases hb : s.status.busy with
  | true => simp
  | false =>
    by_cases hr : storeSize cap store ≤ i
    · simp [hr]
    · have hr' : i < storeSize cap store := Nat.lt_of_not_le hr
      cases store <;> simp only [storeSize] at hr hr' <;> simp [storeSize, hr, hr']

/-- What a step can do, by the next event from outside. -/
theorem advance_cases {cap : Nat} {engine : State → Host.Outcome State Fault Refusal} {s : State}
    {o : Host.Outcome State Fault Refusal} (h : advance cap engine s = o) :
    (s.pending = [] ∧ o = engine s) ∨
    (∃ rest, s.pending = .engineTurn :: rest ∧ o = engine { s with pending := rest }) ∨
    (∃ a rest, s.pending = .access a :: rest ∧ o = .next (performAccess cap a { s with pending := rest })) ∨
    (∃ rest, s.pending = .wait :: rest ∧ o = .next (waitRound rest s)) ∨
    (∃ rest, s.pending = .moveout :: rest ∧ o = .next (beginMoveout cap rest s)) ∨
    (∃ rest, s.pending = .reset :: rest ∧ o = .next (resetEngine { s with pending := rest })) := by
  subst h
  unfold advance
  cases hp : s.pending with
  | nil => exact .inl ⟨rfl, rfl⟩
  | cons e rest => cases e <;> simp

end Sys2Proof.Machine
end

