-- ==== Sys2Proof/Laws/PerInstr.lean ====
section
/-! SUPPORT. Facts about every command as syntax, one lemma for each constructor of `Instr`. -/

namespace Sys2Proof.Laws.EncodedWordSelectsItsRow

/-- The encoded word of a well-formed command selects the command's own row of the opcode table: it satisfies
`w & mask = match` (spec/30_encoding.md R91). -/
def Statement (i : Instr) : Prop := i.wellFormed = true → encode i &&& tableMask = tableMatch i

/-- Two length fields of 8 bits leave `OP` and `RSVD` of the sum alone. -/
theorem fields_leave_op (op klen ivlen : Nat) (ho : op < 256) (hk : klen ≤ 255) (hv : ivlen ≤ 255) :
    BitVec.ofNat 32 (op + 256 * klen + 65536 * ivlen) &&& tableMask = BitVec.ofNat 32 op := by
  have hs : op + 256 * klen + 65536 * ivlen = 2 ^ 8 * (klen + 256 * ivlen) + op := by omega
  have small : ∀ {n k b : Nat}, n < 2 ^ k → k ≤ b → n.testBit b = false := fun hn hb =>
    Nat.testBit_lt_two_pow (lt_of_lt_of_le hn (Nat.pow_le_pow_right (by omega) hb))
  have hm : ∀ b : Fin 32, tableMask.getLsbD b.val = (decide (b.val < 8) || decide (24 ≤ b.val)) := by decide
  apply BitVec.eq_of_getLsbD_eq
  intro b hb
  have hmb : tableMask.getLsbD b = (decide (b < 8) || decide (24 ≤ b)) := hm ⟨b, hb⟩
  rw [BitVec.getLsbD_and, hmb, BitVec.getLsbD_ofNat, BitVec.getLsbD_ofNat, hs,
    Nat.testBit_two_pow_mul_add _ (show op < 2 ^ 8 by omega)]
  by_cases h8 : b < 8
  · simp [h8]
  · rw [small (show op < 2 ^ 8 by omega) (by omega : 8 ≤ b)]
    by_cases h24 : 24 ≤ b
    · rw [small (show klen + 256 * ivlen < 2 ^ 16 by omega) (by omega : 16 ≤ b - 8)]
      simp
    · simp [h8, h24]

theorem encrypt (klen ivlen : Nat) : Statement (.encrypt klen ivlen) := by
  intro h
  simp only [Instr.wellFormed, fieldFits, Bool.and_eq_true, decide_eq_true_eq] at h
  exact fields_leave_op 0x01 klen ivlen (by omega) h.1 h.2

theorem decrypt (klen ivlen : Nat) : Statement (.decrypt klen ivlen) := by
  intro h
  simp only [Instr.wellFormed, fieldFits, Bool.and_eq_true, decide_eq_true_eq] at h
  exact fields_leave_op 0x02 klen ivlen (by omega) h.1 h.2

end Sys2Proof.Laws.EncodedWordSelectsItsRow
end

