-- ==== Sys2Proof/Laws/Steps.lean ====
section
/-! SUPPORT. Runs of several steps, the machine as the machine on `Config.platform`, and what the shared operations do to
the consistent states of Safety.lean. -/

namespace Sys2Proof.Machine

/-! ### The machine and its platform -/

/-- The machine's meanings are the meanings on `Config.platform`. -/
theorem exec_eq_execOn : exec = execOn Config.platform := by
  funext i s; cases i <;> rfl

/-- The machine's step is the step on `Config.platform`. -/
theorem step_eq_stepOn : step = stepOn Config.platform := by
  funext s; simp only [step, stepOn, exec_eq_execOn]

/-- The machine is the machine on `Config.platform`. -/
theorem core_eq_coreOn : Sys2Proof.core = coreOn Config.platform := by
  unfold Sys2Proof.core coreOn
  rw [step_eq_stepOn]

/-! ### Runs -/

@[simp] theorem runsOn_zero {P : Platform} {s t : State} : RunsOn P 0 s t ↔ s = t :=
  ⟨fun h => by injection h, fun h => by subst h; rfl⟩

/-- One step of a run. -/
theorem core_run_succ (M : Host.Core) (n : Nat) (s t : M.State) :
    M.run (n + 1) s = .next t ↔ ∃ u, M.step s = .next u ∧ M.run n u = .next t := by
  have h : M.run (n + 1) s =
      match M.step s with
      | .next u => M.run n u
      | .fault r => .fault r
      | .refused r => .refused r := rfl
  rw [h]
  cases M.step s with
  | next u => exact ⟨fun k => ⟨u, rfl, k⟩, fun ⟨v, hv, k⟩ => by injection hv with hv; rw [hv]; exact k⟩
  | fault r => exact ⟨fun k => (nomatch k), fun ⟨v, hv, _⟩ => (nomatch hv)⟩
  | refused r => exact ⟨fun k => (nomatch k), fun ⟨v, hv, _⟩ => (nomatch hv)⟩

theorem runsOn_succ {P : Platform} {n : Nat} {s t : State} :
    RunsOn P (n + 1) s t ↔ ∃ u, stepOn P s = .next u ∧ RunsOn P n u t :=
  core_run_succ (coreOn P) n s t

theorem runs_succ {n : Nat} {s t : State} : Runs (n + 1) s t ↔ ∃ u, step s = .next u ∧ Runs n u t :=
  core_run_succ Sys2Proof.core n s t

@[simp] theorem runs_zero {s t : State} : Runs 0 s t ↔ s = t :=
  ⟨fun h => by injection h, fun h => by subst h; rfl⟩

/-- A run of the machine is a run of the machine on `Config.platform`. -/
theorem runs_iff_runsOn {n : Nat} {s t : State} : Runs n s t ↔ RunsOn Config.platform n s t := by
  induction n generalizing s with
  | zero => rw [runs_zero, runsOn_zero]
  | succ n ih => simp only [runs_succ, runsOn_succ, step_eq_stepOn, ih]

/-- Runs chain. -/
theorem runsOn_add {P : Platform} {m n : Nat} {s t u : State} (h : RunsOn P m s t) (k : RunsOn P n t u) :
    RunsOn P (m + n) s u := by
  induction m generalizing s with
  | zero => rw [runsOn_zero] at h; subst h; simpa using k
  | succ m ih =>
    obtain ⟨v, hv, hm⟩ := runsOn_succ.1 h
    rw [Nat.succ_add_eq_add_succ, Nat.add_succ]
    exact runsOn_succ.2 ⟨v, hv, ih hm⟩

/-- What each step does to a state, with nothing on its way from outside. -/
theorem stepOn_of_pending_nil {P : Platform} {s : State} (h : s.pending = []) :
    stepOn P s = engineStep (execOn P) s := by
  simp only [stepOn, advance, h]

/-- A busy engine's step under a legal word. -/
theorem engineStep_of_decode {run : Instr → State → Host.Outcome State Fault Refusal} {s : State} {i : Instr}
    (hp : s.phase ≠ .idle) (hd : decode s.cmd = .ok i) : engineStep run s = run i s := by
  unfold engineStep
  split
  · exact absurd ‹_› hp
  · rw [hd]

/-! ### The operations on consistent states -/

/-- The FAIL action ends in a consistent state, whatever the state of the hidden registers was. -/
theorem fail_consistentOn {cap : Nat} {s : State} {code : ResultCode} {ce : CipherError}
    (hce : code ≠ .underlyingCipherFailure → ce = 0) (hs : StoresHold cap s) : (fail code ce s).ConsistentOn cap := by
  refine ⟨by simp [StatusHolds], ⟨hs.1, Memory.empty_wf, hs.2.2.1, by simp⟩, ?_⟩
  simp only [PhaseHolds, fail_phase]
  simp [Resting, NothingPublished]
  exact hce

/-- START ends in a consistent state. -/
theorem start_consistentOn {cap : Nat} {s : State} (w : Word) (hs : StoresHold cap s) : (start w s).ConsistentOn cap := by
  refine ⟨by simp [StatusHolds], ⟨hs.1, Memory.empty_wf, hs.2.2.1, by simp⟩, ?_⟩
  simp [PhaseHolds, Cleared, NothingPublished]

/-- Reset ends in a consistent state, whatever the state was. -/
theorem resetEngine_consistentOn (cap : Nat) (s : State) : (resetEngine s).ConsistentOn cap := by
  refine ⟨by simp [StatusHolds], ⟨Memory.empty_wf, Memory.empty_wf, by simp, by simp⟩, ?_⟩
  simp [PhaseHolds, Resting, NothingPublished, zeroBlock]

/-- Consistency looks at the engine only, not at the model's own fields. -/
theorem consistentOn_of_engine_eq {cap : Nat} {s t : State} (h : s.ConsistentOn cap)
    (e : t = { s with trace := t.trace, reads := t.reads, pending := t.pending }) : t.ConsistentOn cap := by
  rw [e]; exact h

/-- An engine that is not busy is idle. -/
theorem idle_of_not_busy {cap : Nat} {s : State} (h : s.ConsistentOn cap) (hb : s.status.busy = false) :
    s.phase = .idle := by
  by_contra hp
  have := h.1.1.2 hp
  simp [hb] at this

/-- The blocks of an admitted command fit the stores. -/
theorem blocksOf_le {P : Platform} {i : Instr} {len : Nat} (ha : Admitted P.bufcap i len) :
    16 * blocksOf i len ≤ P.bufcap := by
  have := P.bufcap_bounds
  cases i <;> simp only [Admitted, blocksOf, encryptBlocks, decryptBlocks] at * <;> omega

/-- The block just stored is the block read back. -/
theorem Memory.readBlock_writeBlock {m : Memory} (h : m.wf) (a : Nat) (b : Block) :
    (m.writeBlock a b).readBlock a = b := by
  ext j hj : 1
  rw [Memory.getElem_readBlock _ _ _ hj, Memory.read_writeBlock h]
  simp [show a + j < a + 16 by omega]

end Sys2Proof.Machine
end

