-- ==== Sys2Proof/Tests/Slice0.lean ====
section
/-! SUPPORT. Tests. The expected values come from spec/: the encodings of spec/30_encoding.md R90, R91, the vectors of
spec/95_test_vectors.md and spec/96_test_vectors_derived.md, with the stub ciphers of spec/95_test_vectors.md section 0.
A `witness_` theorem shows states and operands that meet all hypotheses of the obligation of that name; which answer
the machine's own cipher gives is open, so no witness settles it. -/

namespace Sys2Proof.Tests

open Sys2Proof Sys2Proof.Machine

/-! ### Helpers -/

/-- The stub cipher `INC`, `BUFCAP = 256`. -/
def inc : Platform where
  extraBlocks := 15
  cipherEnc := fun _ b => .ok (Vector.ofFn fun j => b[j] + 1)
  cipherDec := fun _ e => .ok (Vector.ofFn fun j => e[j] - 1)

/-- A cipher that fails on every request, a legal value of the parameters; `BUFCAP = 16`. -/
def broken : Platform where
  extraBlocks := 0
  cipherEnc := fun _ _ => .err 0xE1
  cipherDec := fun _ _ => .err 0xD1

/-- `key0`, 16 bytes. -/
def key0 : Key := ⟨List.replicate 16 0x00, Or.inl rfl⟩

/-- A block of 16 equal bytes. -/
def rep (b : Byte) : Block := Vector.replicate 16 b

/-- A memory that holds `n` equal bytes from index 0. -/
def filled (b : Byte) (n : Nat) : Memory := ⟨(List.range n).map fun i => (i, b)⟩

/-- The "Hello, AES-CBC!" message of spec/95_test_vectors.md section 1.3, from index 0. -/
def hello : Memory :=
  ⟨[(0, 0x48), (1, 0x65), (2, 0x6c), (3, 0x6c), (4, 0x6f), (5, 0x2c), (6, 0x20), (7, 0x41), (8, 0x45), (9, 0x53),
    (10, 0x2d), (11, 0x43), (12, 0x42), (13, 0x43), (14, 0x21)]⟩

/-- An engine that has just accepted a command word, with a message. -/
def started (w : Word) (ilen : Word) (ibuf : Memory) : State := start w { State.reset with ilen := ilen, ibuf := ibuf }

/-- A state in a given phase with a given command word and message length. -/
def inPhase (p : Phase) (w : Word) (ilen : Word) : State :=
  { start w { State.reset with ilen := ilen } with phase := p }

/-- An idle engine with one event on its way. -/
def upcoming (e : HostEvent) : State := { State.reset with pending := [e] }

/-- A property of the next state; false of a fault and of a refusal. -/
def afterwards (o : Host.Outcome State Fault Refusal) (p : State → Bool) : Bool :=
  match o with
  | .next t => p t
  | .fault _ => false
  | .refused _ => false

/-! ### WellFormed refuses what no word of format `C` holds (R100) -/

theorem test_wellFormed_encrypt_klen : (Instr.encrypt 256 16).wellFormed = false := by decide
theorem test_wellFormed_encrypt_ivlen : (Instr.encrypt 16 256).wellFormed = false := by decide
theorem test_wellFormed_decrypt_klen : (Instr.decrypt 256 16).wellFormed = false := by decide
theorem test_wellFormed_decrypt_ivlen : (Instr.decrypt 16 256).wellFormed = false := by decide
theorem test_wellFormed_limits :
    (Instr.encrypt 255 255).wellFormed = true ∧ (Instr.decrypt 0 0).wellFormed = true := by decide

/-! ### Words written out bit by bit: `RSVD`, `IVLEN`, `KLEN`, `OP` (R90, R91) -/

theorem test_decode_encrypt : decode 0b00000000_00010000_00011000_00000001#32 = .ok (.encrypt 24 16) := by decide
theorem test_decode_decrypt : decode 0b00000000_00010000_00100000_00000010#32 = .ok (.decrypt 32 16) := by decide
theorem test_decode_all_field_bits :
    decode 0b00000000_11111111_11111111_00000001#32 = .ok (.encrypt 255 255) := by decide
theorem test_decode_unknown_op :
    decode 0b00000000_00010000_00010000_00000000#32 = .error (.unknownOperation 0x00) ∧
    decode 0b00000000_00010000_00010000_00000011#32 = .error (.unknownOperation 0x03) := by decide
theorem test_decode_reserved :
    decode 0b00000001_00010000_00010000_00000001#32 = .error (.reservedNotZero 0x01) ∧
    decode 0b10000000_00010000_00010000_00000010#32 = .error (.reservedNotZero 0x80) := by decide
theorem test_encode : encode (.encrypt 24 16) = 0x00101801 ∧ encode (.decrypt 32 16) = 0x00102002 := by decide
theorem test_decodeTableWord :
    decodeTableWord 32 0x00101001 = some (.encrypt 16 16) ∧ decodeTableWord 32 0x01101001 = none := by decide

/-! ### One step of each command -/

/-- Vector X2 of spec/96_test_vectors_derived.md section 2.9, its CHAIN step: the first two and the last byte of the
ciphertext. The last one comes from the pad byte 01. -/
theorem test_encrypt_chain_step :
    afterwards (encryptStep inc 16 16 { inPhase .chain 0x00101001 15 with ibuf := hello, nblk := 1 })
      (fun t => t.obuf.read 0 == 0x49 && t.obuf.read 1 == 0x66 && t.obuf.read 15 == 0x02 && t.wlen == 16) = true := by
  decide

/-- Vector X8: a claimed key length of 15. -/
theorem test_encrypt_bad_key_length :
    afterwards (encryptStep inc 15 16 (inPhase .validate 0x00100F01 15))
      (fun t => t.status.word == 0x12 && t.phase == .idle && t.trace == []) = true := by decide

/-- Vector D1, its UNPAD step: sixteen pad bytes, all stripped. -/
theorem test_decrypt_unpad_step :
    afterwards (decryptStep inc 16 16 { inPhase .unpad 0x00101002 16 with nblk := 1, blk := 1, obuf := filled 0x10 16 })
      (fun t => t.obuf == .empty && t.wlen == 0 && t.phase == .commit) = true := by decide

/-- Vector D8, its UNPAD step: a pad byte of 17. -/
theorem test_decrypt_bad_padding :
    afterwards (decryptStep inc 16 16 { inPhase .unpad 0x00101002 16 with nblk := 1, blk := 1, obuf := filled 0x11 16 })
      (fun t => t.status.word == 0x32 && t.obuf == .empty && t.olen == 0) = true := by decide

/-! ### Consistent states used below -/

theorem reset_stores (cap : Nat) (ilen : Word) : StoresHold cap { State.reset with ilen := ilen } :=
  ⟨Memory.empty_wf, Memory.empty_wf, Memory.empty_below _, Memory.empty_below _⟩

/-- A busy consistent state: a command just accepted. -/
theorem started_consistent (w ilen : Word) : (started w ilen ⟨[]⟩).Consistent :=
  start_consistentOn w (reset_stores _ ilen)

/-- An idle consistent state that has completed a command with a failure. -/
def failed : State := fail .illegalCommand 0 (started 0 0 ⟨[]⟩)

theorem failed_consistent : failed.Consistent := fail_consistentOn (fun _ => rfl) (started_consistent 0 0).2.1

/-- A second busy consistent state with the operands of `started w 0 ⟨[]⟩`: its DECODE step taken. -/
theorem validating_consistent : (inPhase .validate 0x00101001 0).Consistent := by
  have hb := Config.platform.bufcap_bounds
  refine ⟨by simp [StatusHolds, inPhase], (started_consistent 0x00101001 0).2.1, ?_⟩
  simp only [PhaseHolds, inPhase]
  refine ⟨?_, .encrypt 16 16, by decide, ?_⟩
  · simp [Cleared, NothingPublished]
  · show (0 : Word).toNat < _
    simp; omega

/-- An ENCRYPT of the empty message about to complete, on a cipher that gave the zero block. -/
def encryptDone : State := { inPhase .commit 0x00101001 0 with blk := 1, nblk := 1, wlen := 16 }

/-- An ENCRYPT of 15 bytes about to complete. -/
def encryptDone15 : State := { inPhase .commit 0x00101001 15 with blk := 1, nblk := 1, wlen := 16 }

/-- A DECRYPT of one block about to complete with `n` bytes. -/
def decryptDone (n : Nat) : State := { inPhase .commit 0x00101002 16 with blk := 1, nblk := 1, wlen := n }

theorem encryptDone_consistent : encryptDone.Consistent := by
  have hb := Config.platform.bufcap_bounds
  refine ⟨by simp [StatusHolds, encryptDone, inPhase], (started_consistent 0x00101001 0).2.1, ?_⟩
  refine ⟨.encrypt 16 16, ⟨⟨rfl, rfl⟩, ⟨by decide, ?_, by decide⟩, trivial, by decide, ?_⟩, rfl, by decide, ?_, rfl⟩
  · show (0 : Word).toNat < _
    simp; omega
  · show zeroBlock = Memory.empty.readBlock 0
    ext j; simp [zeroBlock]
  · simp [encryptDone, inPhase]

theorem encryptDone15_consistent : encryptDone15.Consistent := by
  have hb := Config.platform.bufcap_bounds
  refine ⟨by simp [StatusHolds, encryptDone15, inPhase], (started_consistent 0x00101001 15).2.1, ?_⟩
  refine ⟨.encrypt 16 16, ⟨⟨rfl, rfl⟩, ⟨by decide, ?_, by decide⟩, trivial, by decide, ?_⟩, rfl, by decide, ?_, rfl⟩
  · show (15 : Word).toNat < _
    simp; omega
  · show zeroBlock = Memory.empty.readBlock 0
    ext j; simp [zeroBlock]
  · simp [encryptDone15, inPhase]

theorem decryptDone_consistent (n : Nat) (hn : n ≤ 15) : (decryptDone n).Consistent := by
  have hb := Config.platform.bufcap_bounds
  have hword : decode (0x00101002 : Word) = .ok (.decrypt 16 16) := by decide
  have hlen : (16 : Word).toNat % 16 = 0 ∧ 16 ≤ (16 : Word).toNat := by decide
  have hblocks : 1 = (16 : Word).toNat / 16 := by decide
  refine ⟨by simp [StatusHolds, decryptDone, inPhase], (started_consistent 0x00101002 16).2.1, ?_⟩
  refine ⟨.decrypt 16 16, ⟨⟨rfl, rfl⟩, ⟨hword, ?_, by decide⟩, hlen, hblocks, ?_⟩, rfl, Nat.le_refl 1, ?_, ?_⟩
  · show (16 : Word).toNat ≤ _
    simp; omega
  · show zeroBlock = Memory.empty.readBlock 0
    ext j; simp [zeroBlock]
  · simp [decryptDone, inPhase]
  · constructor
    · show 16 * 1 ≤ n + 16
      omega
    · show n < 16 * 1
      omega

/-- An idle engine whose last result is 16 bytes of 0x10. -/
def published : State := { State.reset with status := ⟨false, true, .ok⟩, olen := 16, obuf := filled 0x10 16 }

theorem published_consistent : published.Consistent := by
  have hb := Config.platform.bufcap_bounds
  have h16 : published.obuf.Below 16 := by decide
  refine ⟨by simp [StatusHolds, published, State.reset], ⟨⟨List.Pairwise.nil, by decide⟩, by decide, by simp [published, State.reset], ?_⟩, ?_⟩
  · exact Memory.below_mono h16 hb.1
  · refine ⟨rfl, rfl, rfl, rfl, h16, ?_, (fun h => nomatch h), (fun h => absurd rfl h), fun _ => rfl⟩
    exact hb.1

/-! ### Witnesses: encoding and the step -/

theorem witness_DecodeOfEncodeIsIdentity :
    (Instr.encrypt 255 0).wellFormed = true ∧ (Instr.decrypt 0 255).wellFormed = true := by decide

theorem witness_EncodeOfDecodeIsIdentity : decode 0x00FF0001 = .ok (.encrypt 0 255) := by decide

/-- One word for each branch, at the limits of the fields. -/
theorem witness_DecodeIsTheTotalFunctionOfTheWord :
    (0x01000001 : Word).toNat / 16777216 ≠ 0 ∧
    (0x00FFFF01 : Word).toNat / 16777216 = 0 ∧ (0x00FFFF01 : Word).toNat % 256 = 1 ∧
    (0x00000002 : Word).toNat / 16777216 = 0 ∧ (0x00000002 : Word).toNat % 256 = 2 ∧
    (0x00FFFF03 : Word).toNat / 16777216 = 0 ∧ (0x00FFFF03 : Word).toNat % 256 = 3 := by decide

theorem witness_StepRunsTheLatchedCommand :
    (started 0x00101001 0 ⟨[]⟩).phase ≠ .idle ∧ decode (started 0x00101001 0 ⟨[]⟩).cmd = .ok (.encrypt 16 16) ∧
    (started 0x00101001 0 ⟨[]⟩).pending = [] ∧
    { started 0x00101001 0 ⟨[]⟩ with pending := [.engineTurn] }.pending = [.engineTurn] := by decide

theorem witness_PlacedWordIsTheNextCommandRun :
    State.reset.pending = [] ∧ decodeTableWord 32 0x00000001 = some (.encrypt 0 0) ∧
    decodeTableWord 32 0x00FFFF02 = some (.decrypt 255 255) := by decide

theorem witness_IdleEngineKeepsItsState : State.reset.phase = .idle ∧ State.reset.pending = [] := by decide

/-- `BUFCAP` as an `ILEN`. -/
def capWord : Word := BitVec.ofNat 32 Config.platform.bufcap

theorem capWord_toNat : capWord.toNat = Config.platform.bufcap := by
  have := Config.platform.bufcap_bounds
  simp [capWord]; omega

/-- The hypotheses, and a word and length for each branch: a reserved bit, an unknown operation, an ENCRYPT of `BUFCAP`
bytes, a DECRYPT of one byte more, and one of exactly `BUFCAP`, which goes on. -/
theorem witness_DecodeStepChecksWordThenCapacity :
    (∀ w ilen, (started w ilen ⟨[]⟩).phase = .decode ∧ (started w ilen ⟨[]⟩).pending = []) ∧
    rsvdField 0x01000001 ≠ 0x00 ∧ (opField 0x00000003 ≠ 0x01 ∧ opField 0x00000003 ≠ 0x02) ∧
    (opField 0x00101001 = 0x01 ∧ capWord.toNat ≥ Config.platform.bufcap) ∧
    (opField 0x00101002 = 0x02 ∧ (capWord + 1).toNat > Config.platform.bufcap) ∧
    ¬capWord.toNat > Config.platform.bufcap := by
  have h := Config.platform.bufcap_bounds
  have hc := capWord_toNat
  refine ⟨fun w ilen => ⟨rfl, rfl⟩, by decide, by decide, ⟨by decide, by omega⟩, ⟨by decide, ?_⟩, by omega⟩
  have h1 : (1 : Word).toNat = 1 := rfl
  rw [BitVec.toNat_add, hc, h1]
  omega

/-- Lengths on both sides of every test. -/
theorem witness_ValidateStepChecksBothLengths :
    (inPhase .validate 0x00101001 0).phase = .validate ∧
    (∀ klen ∈ [15, 17, 23, 25, 31, 33], ¬(klen = 16 ∨ klen = 24 ∨ klen = 32)) ∧ 15 ≠ 16 ∧ 17 ≠ 16 := by
  refine ⟨rfl, ?_, by decide, by decide⟩
  intro klen h
  simp at h
  omega

theorem witness_LengthCheckStepOfDecrypt :
    (∀ ilen ∈ [0, 15, 17], (inPhase .lencheck 0x00101002 ilen).phase = .lencheck ∧
      (ilen.toNat % 16 ≠ 0 ∨ ilen.toNat < 16)) ∧
    (inPhase .lencheck 0x00101002 16).phase = .lencheck ∧ ¬((16 : Word).toNat % 16 ≠ 0 ∨ (16 : Word).toNat < 16) := by
  have h : ∀ ilen ∈ [(0 : Word), 15, 17], ilen.toNat % 16 ≠ 0 ∨ ilen.toNat < 16 := by
    intro ilen hi
    simp only [List.mem_cons, List.not_mem_nil, or_false] at hi
    rcases hi with rfl | rfl | rfl <;> simp
  exact ⟨fun ilen hi => ⟨rfl, h ilen hi⟩, rfl, by decide⟩

/-- The first block of `n`. -/
def chaining (w : Word) (ilen : Word) (n : Nat) : State := { inPhase .chain w ilen with nblk := n }

/-- The last block (`NBLK = 1`) and one that is not the last (`NBLK = 2`), for each valid key length. -/
theorem witness_EncryptChainStepCompletes :
    ∀ n ∈ [1, 2], ∀ klen ∈ [16, 24, 32], ∃ key : Key,
      (chaining 0x00101001 16 n).phase = .chain ∧ (chaining 0x00101001 16 n).blk < (chaining 0x00101001 16 n).nblk ∧
      16 * (chaining 0x00101001 16 n).blk + 16 ≤ Config.platform.bufcap ∧ (chaining 0x00101001 16 n).obuf.wf ∧
      (klen = 16 ∨ klen = 24 ∨ klen = 32) ∧ key.bytes = (chaining 0x00101001 16 n).key.toList.take klen := by
  intro n hn klen hk
  have hb := Config.platform.bufcap_bounds
  have hv : ValidKeyLength klen := by simpa using hk
  have hn' : 0 < n := by simp at hn; omega
  obtain ⟨key, he⟩ := keyOperand_isSome (store := (chaining 0x00101001 16 n).key) hv
  exact ⟨key, rfl, hn', hb.1, Memory.empty_wf, hv, (keyOperand_eq_some.1 he).2⟩

theorem witness_DecryptChainStepCompletes :
    ∀ n ∈ [1, 2], ∀ klen ∈ [16, 24, 32], ∃ key : Key,
      (chaining 0x00101002 32 n).phase = .chain ∧ (chaining 0x00101002 32 n).blk < (chaining 0x00101002 32 n).nblk ∧
      16 * (chaining 0x00101002 32 n).blk + 16 ≤ Config.platform.bufcap ∧ (chaining 0x00101002 32 n).obuf.wf ∧
      (klen = 16 ∨ klen = 24 ∨ klen = 32) ∧ key.bytes = (chaining 0x00101002 32 n).key.toList.take klen := by
  intro n hn klen hk
  have hb := Config.platform.bufcap_bounds
  have hv : ValidKeyLength klen := by simpa using hk
  have hn' : 0 < n := by simp at hn; omega
  obtain ⟨key, he⟩ := keyOperand_isSome (store := (chaining 0x00101002 32 n).key) hv
  exact ⟨key, rfl, hn', hb.1, Memory.empty_wf, hv, (keyOperand_eq_some.1 he).2⟩

/-- A state about to unpad one block. -/
def unpadding (obuf : Memory) : State := { inPhase .unpad 0x00101002 16 with nblk := 1, blk := 1, obuf := obuf }

/-- The hypotheses; last bytes 0, 17 and an inconsistent 2, which fail, and 1 and 16, which do not. -/
theorem witness_UnpadStepOfDecryptCompletes :
    (∀ m ∈ [Memory.empty, filled 0x11 16, ⟨[(15, 0x02)]⟩, ⟨[(15, 0x01)]⟩, filled 0x10 16],
      (unpadding m).phase = .unpad ∧ 1 ≤ (unpadding m).nblk ∧ 16 * (unpadding m).nblk ≤ Config.platform.bufcap ∧
      (unpadding m).obuf.wf) ∧
    (Memory.empty.read 15).toNat = 0 ∧ ((filled 0x11 16).read 15).toNat > 16 ∧
    (Memory.mk [(15, 0x02)]).read 14 ≠ (Memory.mk [(15, 0x02)]).read 15 ∧
    ((Memory.mk [(15, 0x01)]).read 15).toNat = 1 ∧ ∀ j : Fin 16, (filled 0x10 16).read j.val = 0x10 := by
  refine ⟨?_, by decide, by decide, by decide, by decide, by decide⟩
  intro m hm
  refine ⟨rfl, Nat.le_refl 1, Config.platform.bufcap_bounds.1, ?_⟩
  have h : ∀ m ∈ [Memory.empty, filled 0x11 16, ⟨[(15, 0x02)]⟩, ⟨[(15, 0x01)]⟩, filled 0x10 16], Memory.wf m := by decide
  exact h m hm

theorem witness_CommitStepPublishesTheResult :
    encryptDone.Consistent ∧ encryptDone.phase = .commit ∧ (decryptDone 0).Consistent ∧ (decryptDone 0).phase = .commit :=
  ⟨encryptDone_consistent, rfl, decryptDone_consistent 0 (by omega), rfl⟩

/-- Both lengths of an ENCRYPT's table and both ends of a DECRYPT's range. -/
theorem witness_PublishedLengthOfEachCommand :
    (encryptDone.Consistent ∧ encryptDone.phase = .commit ∧ decode encryptDone.cmd = .ok (.encrypt 16 16) ∧
      exec (.encrypt 16 16) encryptDone = .next (commit encryptDone) ∧ encryptDone.ilen.toNat % 16 = 0) ∧
    (encryptDone15.Consistent ∧ encryptDone15.phase = .commit ∧ decode encryptDone15.cmd = .ok (.encrypt 16 16) ∧
      exec (.encrypt 16 16) encryptDone15 = .next (commit encryptDone15) ∧ encryptDone15.ilen.toNat % 16 ≠ 0) ∧
    ∀ n ∈ [0, 15], (decryptDone n).Consistent ∧ (decryptDone n).phase = .commit ∧
      decode (decryptDone n).cmd = .ok (.decrypt 16 16) ∧
      exec (.decrypt 16 16) (decryptDone n) = .next (commit (decryptDone n)) := by
  refine ⟨⟨encryptDone_consistent, rfl, by decide, rfl, by decide⟩,
    ⟨encryptDone15_consistent, rfl, by decide, rfl, by decide⟩, fun n hn => ?_⟩
  have hword : decode (0x00101002 : Word) = .ok (.decrypt 16 16) := by decide
  exact ⟨decryptDone_consistent n (by simp at hn; omega), rfl, hword, rfl⟩

theorem witness_FailureLeavesExactlyTheFailAction :
    (started 0 0 ⟨[]⟩).phase ≠ .idle ∧ (started 0 0 ⟨[]⟩).pending = [] ∧ step (started 0 0 ⟨[]⟩) = .next failed ∧
    failed.phase = .idle ∧ failed.status.code ≠ .ok :=
  ⟨by decide, rfl, rfl, by decide, by decide⟩

theorem witness_EngineStepFrame :
    exec (.encrypt 16 16) encryptDone = .next (commit encryptDone) ∧
    exec (.decrypt 16 16) (decryptDone 15) = .next (commit (decryptDone 15)) := ⟨rfl, rfl⟩

/-! ### Witnesses: host accesses -/

/-- Register numbers 0, 1, 2 and 5, idle and busy. -/
theorem witness_HostWriteOfRegister :
    ∀ n ∈ [0, 1, 2, 5], (upcoming (.access (.writeReg n 7))).pending = .access (.writeReg n 7) :: [] ∧
      (upcoming (.access (.writeReg n 7))).status.busy = false ∧
      { started 0 0 ⟨[]⟩ with pending := [.access (.writeReg n 7)] }.status.busy = true :=
  fun _ _ => ⟨rfl, rfl, rfl⟩

theorem witness_AcceptedCommandWriteStartsTheSequencer :
    (upcoming (.access (.writeReg 0 0x00101001))).status.busy = false ∧
    (upcoming (.access (.writeReg 0 0x00101001))).pending = .access (.writeReg 0 0x00101001) :: [] := ⟨rfl, rfl⟩

/-- A busy consistent engine with one more event on its way. -/
def busyWith (e : HostEvent) : State := { started 0x00101001 0 ⟨[]⟩ with pending := [e] }

theorem busyWith_consistent (e : HostEvent) : (busyWith e).Consistent := started_consistent 0x00101001 0

theorem witness_HostReadOfRegister :
    ∀ n ∈ [0, 1, 2, 3, 4, 5], (busyWith (.access (.readReg n))).pending = .access (.readReg n) :: [] ∧
      (busyWith (.access (.readReg n))).Consistent ∧ (busyWith (.access (.readReg n))).status.busy = true :=
  fun _ _ => ⟨rfl, busyWith_consistent _, rfl⟩

/-- The last byte of each store, written while idle, and an index just out of range. -/
theorem witness_HostWriteOfByte :
    (upcoming (.access (.writeByte .key 31 9))).ibuf.wf ∧
    (upcoming (.access (.writeByte .key 31 9))).pending = .access (.writeByte .key 31 9) :: [] ∧
    ¬((upcoming (.access (.writeByte .key 31 9))).status.busy = true ∨ Store.key = .obuf ∨
      storeSize Config.platform.bufcap .key ≤ 31) ∧
    ¬(false = true ∨ Store.iv = .obuf ∨ storeSize Config.platform.bufcap .iv ≤ 15) ∧
    ¬(false = true ∨ Store.ibuf = .obuf ∨ storeSize Config.platform.bufcap .ibuf ≤ Config.platform.bufcap - 1) ∧
    storeSize Config.platform.bufcap .key ≤ 32 ∧ storeSize Config.platform.bufcap .iv ≤ 16 := by
  have hb := Config.platform.bufcap_bounds
  refine ⟨Memory.empty_wf, rfl, ?_, ?_, ?_, ?_, ?_⟩ <;> simp [storeSize, upcoming, State.reset]
  omega

/-- The last byte of the result just below `OLEN`. -/
theorem witness_HostReadOfByte :
    { published with pending := [.access (.readByte .obuf 15)] }.pending = .access (.readByte .obuf 15) :: [] ∧
    { published with pending := [.access (.readByte .obuf 15)] }.Consistent ∧ published.storeByte .obuf 15 ≠ 0x00 ∧
    (busyWith (.access (.readByte .obuf 15))).pending = .access (.readByte .obuf 15) :: [] :=
  ⟨rfl, published_consistent, by decide, rfl⟩

theorem witness_WritesWhileBusyAreLost :
    (busyWith .wait).status.busy = true ∧
    { busyWith .wait with pending := [.access (.writeReg 0 7), .access (.writeByte .key 31 9), .wait] }.pending =
      [Access.writeReg 0 7, Access.writeByte .key 31 9].map .access ++ [.wait] ∧
    ∀ a ∈ [Access.writeReg 0 7, Access.writeByte .key 31 9],
      (∃ n v, a = .writeReg n v) ∨ ∃ store i v, a = .writeByte store i v := by
  refine ⟨rfl, rfl, fun a ha => ?_⟩
  simp only [List.mem_cons, List.not_mem_nil, or_false] at ha
  rcases ha with h | h
  · exact .inl ⟨0, 7, h⟩
  · exact .inr ⟨.key, 31, 9, h⟩

theorem witness_HostCannotTellEngineStepsApart :
    let s := started 0x00101001 0 ⟨[]⟩
    let t := inPhase .validate 0x00101001 0
    s.Consistent ∧ t.Consistent ∧ s.status.busy = true ∧ t.status.busy = true ∧ s.cmd = t.cmd ∧ s.ilen = t.ilen ∧
    s.key = t.key ∧ s.iv = t.iv ∧ s.ibuf = t.ibuf ∧ s.phase ≠ t.phase :=
  ⟨started_consistent _ _, validating_consistent, rfl, rfl, rfl, rfl, rfl, rfl, rfl, by decide⟩

theorem witness_OperandsAreLockedWhileBusy :
    encryptDone.status.busy = true ∧ (∀ rest, encryptDone.pending ≠ .reset :: rest) ∧
    step encryptDone = .next (commit encryptDone) := ⟨rfl, (fun _ h => nomatch h), rfl⟩

theorem witness_ResultIsRetainedWhileIdle :
    let s := { published with pending := [.access (.writeReg 1 7)] }
    s.phase = .idle ∧ (∀ rest, s.pending ≠ .reset :: rest) ∧ (∀ w rest, s.pending ≠ .access (.writeReg 0 w) :: rest) ∧
    step s = .next { published with ilen := 7 } := by
  refine ⟨rfl, fun _ h => ?_, fun _ _ h => ?_, rfl⟩ <;> simp at h

/-- Each of the three cases: busy, nothing completed since reset, a failure. -/
theorem witness_NoPartialOutputIsReadable :
    ((started 0 0 ⟨[]⟩).Consistent ∧ (started 0 0 ⟨[]⟩).status.busy = true) ∧
    ((resetEngine failed).Consistent ∧ (resetEngine failed).status.done = false) ∧
    (failed.Consistent ∧ failed.status.code ≠ .ok) :=
  ⟨⟨started_consistent 0 0, rfl⟩, ⟨resetEngine_consistentOn _ _, rfl⟩, failed_consistent, by decide⟩

theorem witness_WaitEndsWithTheCommandDone :
    (busyWith .wait).Consistent ∧ (busyWith .wait).status.busy = true ∧ (busyWith .wait).pending = .wait :: [] :=
  ⟨busyWith_consistent _, rfl, rfl⟩

theorem witness_MoveoutFeedsTheResultBack :
    let s := { published with pending := [.moveout] }
    s.Consistent ∧ s.status.busy = false ∧ s.pending = .moveout :: [] := ⟨published_consistent, rfl, rfl⟩

/-! ### Witnesses: reset and the invariant -/

theorem witness_ResetGivesEveryFieldItsValue : (busyWith .reset).pending = .reset :: [] := rfl

theorem witness_EveryStepKeepsConsistency :
    encryptDone.Consistent ∧ step encryptDone = .next (commit encryptDone) ∧
    (started 0 0 ⟨[]⟩).Consistent ∧ step (started 0 0 ⟨[]⟩) = .next failed :=
  ⟨encryptDone_consistent, rfl, started_consistent 0 0, rfl⟩

theorem witness_NoConsistentStateStops : encryptDone.Consistent ∧ published.Consistent :=
  ⟨encryptDone_consistent, published_consistent⟩

theorem witness_StatusTakesOnlyItsWords :
    (started 0 0 ⟨[]⟩).Consistent ∧ failed.Consistent ∧ failed.status.word = 0x00000052 ∧ published.Consistent ∧
    published.status.word = 0x00000002 :=
  ⟨started_consistent 0 0, failed_consistent, by decide, published_consistent, by decide⟩

theorem witness_OnlyResetEndsACommandWithoutCode :
    encryptDone.Consistent ∧ encryptDone.status.busy = true ∧ (∀ rest, encryptDone.pending ≠ .reset :: rest) ∧
    step encryptDone = .next (commit encryptDone) ∧ (commit encryptDone).phase = .idle :=
  ⟨encryptDone_consistent, rfl, (fun _ h => nomatch h), rfl, rfl⟩

/-! ### Witnesses: whole commands -/

/-- An ENCRYPT of the empty message and a DECRYPT of exactly `BUFCAP` bytes. -/
theorem witness_CommandReachesItsFacadeResult :
    (State.reset.pending = [] ∧ decode 0x00101001 = .ok (.encrypt 16 16) ∧
      Admitted Config.platform.bufcap (.encrypt 16 16) State.reset.msgLen) ∧
    ({ State.reset with ilen := capWord }.pending = [] ∧ decode 0x00101002 = .ok (.decrypt 16 16) ∧
      Admitted Config.platform.bufcap (.decrypt 16 16) { State.reset with ilen := capWord }.msgLen) := by
  have hb := Config.platform.bufcap_bounds
  refine ⟨⟨rfl, by decide, ?_⟩, rfl, by decide, ?_⟩
  · show (0 : Word).toNat < _
    simp; omega
  · show capWord.toNat ≤ _
    exact le_of_eq capWord_toNat

/-- An illegal word, an ENCRYPT of `BUFCAP` bytes, which is not admitted, and a DECRYPT of them, which is. -/
theorem witness_EveryWordCompletesWithItsCode :
    (∀ w, (upcoming (.access (.writeReg 0 w))).status.busy = false ∧
      (upcoming (.access (.writeReg 0 w))).pending = [.access (.writeReg 0 w)]) ∧
    decode 0x00000000 = .error (.unknownOperation 0x00) ∧
    (decode 0x00101001 = .ok (.encrypt 16 16) ∧ ¬Admitted Config.platform.bufcap (.encrypt 16 16) capWord.toNat) ∧
    (decode 0x00101002 = .ok (.decrypt 16 16) ∧ Admitted Config.platform.bufcap (.decrypt 16 16) capWord.toNat) := by
  have hc := capWord_toNat
  refine ⟨fun _ => ⟨rfl, rfl⟩, by decide, ⟨by decide, ?_⟩, by decide, ?_⟩ <;> simp only [Admitted] <;> omega

theorem witness_EveryCommandEnds :
    (started 0 0 ⟨[]⟩).Consistent ∧ (started 0 0 ⟨[]⟩).pending = [] ∧ (started 0 0 ⟨[]⟩).phase ≠ .idle :=
  ⟨started_consistent 0 0, rfl, by decide⟩

/-- A bad key length, and a bad IV length. -/
theorem witness_BadParametersAreRejectedWithoutTheCipher :
    State.reset.pending = [] ∧ decode 0x00100F01 = .ok (.encrypt 15 16) ∧ decode 0x00112002 = .ok (.decrypt 32 17) ∧
    Admitted Config.platform.bufcap (.encrypt 15 16) State.reset.msgLen ∧
    Admitted Config.platform.bufcap (.decrypt 32 17) State.reset.msgLen ∧
    ¬((Instr.encrypt 15 16).klen = 16 ∨ (Instr.encrypt 15 16).klen = 24 ∨ (Instr.encrypt 15 16).klen = 32) ∧
    (Instr.decrypt 32 17).ivlen ≠ 16 := by
  have hb := Config.platform.bufcap_bounds
  refine ⟨rfl, by decide, by decide, ?_, Nat.zero_le _, by decide, by decide⟩
  show (0 : Word).toNat < _
  simp; omega

/-- `ILEN` 0 and 15. -/
theorem witness_BadCiphertextLengthIsRejectedWithoutTheCipher :
    ∀ ilen ∈ [(0 : Word), 15], { State.reset with ilen := ilen }.pending = [] ∧
      decode 0x00101802 = .ok (.decrypt 24 16) ∧ (24 = 16 ∨ 24 = 24 ∨ 24 = 32) ∧
      ilen.toNat ≤ Config.platform.bufcap ∧ (ilen.toNat = 0 ∨ ilen.toNat % 16 ≠ 0) := by
  have hb := Config.platform.bufcap_bounds
  intro ilen hi
  simp only [List.mem_cons, List.not_mem_nil, or_false] at hi
  refine ⟨rfl, by decide, by decide, ?_, ?_⟩ <;> rcases hi with rfl | rfl <;> simp
  omega

/-- An engine that holds one ciphertext block of 16 equal bytes. -/
def oneBlock (b : Byte) : State := { State.reset with ilen := 16, ibuf := filled b 16 }

/-- Vectors D7 and D8 of spec/96_test_vectors_derived.md section 2.10: pad bytes 0 and 17. -/
theorem witness_BadPaddingIsRejectedAfterTheWholeChain :
    ∀ b ∈ [(0x01 : Byte), 0x12], ∃ calls last,
      (oneBlock b).pending = [] ∧ decode 0x00101002 = .ok (.decrypt 16 16) ∧
      keyOperand (oneBlock b).key 16 = some key0 ∧ (oneBlock b).msgLen ≤ inc.bufcap ∧ (oneBlock b).msgLen % 16 = 0 ∧
      16 ≤ (oneBlock b).msgLen ∧
      decChain inc key0 (oneBlock b).iv (ctsplit (oneBlock b).message) = (calls, .ok [last]) ∧
      [last].getLast? = some last ∧ (last[15].toNat = 0 ∨ last[15].toNat > 16) := by
  intro b hb
  have h : ∀ b ∈ [(0x01 : Byte), 0x12],
      decChain inc key0 (rep 0) (ctsplit (oneBlock b).message) =
        ([⟨.dec, key0, rep b, .ok (rep (b - 1))⟩], .ok [rep (b - 1)]) := by
    decide
  have hp : ∀ b ∈ [(0x01 : Byte), 0x12], (rep (b - 1))[15].toNat = 0 ∨ (rep (b - 1))[15].toNat > 16 := by decide
  have hk : keyOperand State.reset.key 16 = some key0 := by decide
  have hw : decode 0x00101002 = .ok (.decrypt 16 16) := by decide
  have hl : (16 : Word).toNat ≤ 256 ∧ (16 : Word).toNat % 16 = 0 ∧ 16 ≤ (16 : Word).toNat := by decide
  exact ⟨[⟨.dec, key0, rep b, .ok (rep (b - 1))⟩], rep (b - 1), rfl, hw, hk, hl.1, hl.2.1, hl.2.2, h b hb, rfl, hp b hb⟩

/-- Two engines that differ in everything the command `0x00101001` on a message of 0 bytes does not read. -/
theorem witness_CommandsAreStateless :
    let s := State.reset
    let t := { published with key := Vector.ofFn fun j => if j.val < 16 then 0x00 else 0xFF, ibuf := filled 0x77 4 }
    s.pending = [] ∧ t.pending = [] ∧ SameOperands 0x00101001 s t ∧
    Runs 1 (start 0 s) (fail .illegalCommand 0 (start 0 s)) ∧ SameOperands 0 s t := by
  refine ⟨rfl, rfl, ⟨rfl, rfl, by decide, rfl⟩, rfl, ⟨rfl, rfl, by decide, rfl⟩⟩

/-- The state in which the ENCRYPT of the empty message ends with the stub `INC` (vector X1). -/
def encrypted : State :=
  { State.reset with
    cmd := 0x00101001, status := ⟨false, true, .ok⟩, olen := 16, obuf := filled 0x11 16
    trace := [⟨.enc, key0, rep 0x10, .ok (rep 0x11)⟩] }

theorem witness_DecryptOfEncryptRestoresTheMessageOnTheDevice :
    inc.CipherInverse ∧ State.reset.pending = [] ∧ (16 = 16 ∨ 16 = 24 ∨ 16 = 32) ∧ State.reset.msgLen < inc.bufcap ∧
    RunsOn inc 4 (start (encode (.encrypt 16 16)) State.reset) encrypted ∧ encrypted.phase = .idle ∧
    encrypted.status.code = .ok := by
  refine ⟨?_, rfl, by decide, by decide, rfl, rfl, rfl⟩
  intro k b e h
  simp only [inc, CipherResponse.ok.injEq] at h ⊢
  subst h
  ext j hj : 1
  simp

/-! ### Witnesses: the functions of the source -/

theorem witness_UnpadAcceptsExactlyTrailingPadding :
    unpad (List.replicate 16 0x10) = .ok [] ∧ unpad [] = .error .invalidPadding := by decide

theorem witness_UnpadOfOneBlockIsTheGeneralUnpad : (rep 0x11)[15].toNat > 16 := by decide

theorem witness_UnpadInvertsPad :
    ([] : List Byte).length < 16 ∧ (List.replicate 15 (0xAA : Byte)).length < 16 ∧ unpad16 (rep 0x10) = .ok [] := by
  decide

theorem witness_SegmenterLaws :
    split ([] : List Byte) ≠ [] ∧ (List.replicate 32 (0xAA : Byte)).length % 16 = 0 ∧ split [0x01] = split [0x01] := by
  decide

theorem witness_PlaintextFetchIsSplit : 0 < State.reset.ilen.toNat / 16 + 1 := by decide

theorem witness_EncryptChainIsTheRecurrence :
    (encChain inc key0 (rep 0) [rep 0x10, rep 0x20]).2 = .ok [rep 0x11, rep 0x32] := by decide

theorem witness_DecryptChainIsTheRecurrence :
    (decChain inc key0 (rep 0) [rep 0x11, rep 0x32]).2 = .ok [rep 0x10, rep 0x20] := by decide

/-- A chain that fails and one that does not. -/
theorem witness_WrongIvChangesOnlyTheFirstBlock :
    (decChain broken key0 (rep 0) [rep 0x11]).2 = .error 0xD1 ∧
    (decChain inc key0 (rep 0) [rep 0x11, rep 0x32]).2 = .ok [rep 0x10, rep 0x20] := by decide

theorem witness_ChainsStopAtTheFirstFailure :
    encChain broken key0 (rep 0) [rep 1, rep 2] = ([⟨.enc, key0, rep 1, .err 0xE1⟩], .error 0xE1) ∧
    decChain broken key0 (rep 0) [rep 1, rep 2] = ([⟨.dec, key0, rep 1, .err 0xD1⟩], .error 0xD1) := by decide

theorem witness_DecryptChainInvertsEncryptChain :
    inc.CipherInverse ∧ (encChain inc key0 (rep 0) [rep 0x10]).2 = .ok [rep 0x11] :=
  ⟨witness_DecryptOfEncryptRestoresTheMessageOnTheDevice.1, by decide⟩

/-- An ENCRYPT and a DECRYPT that complete, and one that ends in `InvalidPadding`. -/
theorem witness_CapabilityUseOfEachCommand :
    facadeEncrypt inc [] (some key0) (some (rep 0)) =
      ([⟨.enc, key0, rep 0x10, .ok (rep 0x11)⟩], .ok (List.replicate 16 0x11)) ∧
    facadeDecrypt inc (List.replicate 16 0x11) (some key0) (some (rep 0)) =
      ([⟨.dec, key0, rep 0x11, .ok (rep 0x10)⟩], .ok []) ∧
    facadeDecrypt inc (List.replicate 16 0x12) (some key0) (some (rep 0)) =
      ([⟨.dec, key0, rep 0x12, .ok (rep 0x11)⟩], .error .invalidPadding) := by decide

theorem witness_FacadeRoundTrip :
    inc.CipherInverse ∧ facadeEncrypt inc [] (some key0) (some (rep 0)) =
      ([⟨.enc, key0, rep 0x10, .ok (rep 0x11)⟩], .ok (List.replicate 16 0x11)) :=
  ⟨witness_DecryptOfEncryptRestoresTheMessageOnTheDevice.1, by decide⟩

end Sys2Proof.Tests
end

/-! PROOFS. Progress: from a consistent state every step answers a next state. Each fault of the model stands in a phase
and under a command word that the invariant rules out (spec/00_scope.md R12, spec/60_exceptions.md R231). -/

namespace Sys2Proof.Machine

/-! ### What the invariant says of the latched word in each phase -/

theorem decode_of_chaining {cap : Nat} {i : Instr} {s : State} (h : Chaining cap i s) : decode s.cmd = .ok i := by
  obtain ⟨-, ⟨hd, -⟩, -⟩ := h
  exact hd

/-- Beyond DECODE a busy engine holds a legal word: DECODE fails the illegal ones (R191). -/
theorem exists_decode_of_consistentOn {cap : Nat} {s : State} (h : s.ConsistentOn cap)
    (hi : s.phase ≠ .idle) (hd : s.phase ≠ .decode) : ∃ i, decode s.cmd = .ok i := by
  obtain ⟨-, -, hph⟩ := h
  unfold PhaseHolds at hph
  split at hph <;> rename_i hp
  case h_1 => exact absurd hp hi
  case h_2 => exact absurd hp hd
  case h_3 => obtain ⟨-, i, hi, -⟩ := hph; exact ⟨i, hi⟩
  case h_4 => obtain ⟨-, klen, ivlen, hv, -⟩ := hph; exact ⟨_, hv⟩
  case h_5 => obtain ⟨i, hc, -⟩ := hph; exact ⟨i, decode_of_chaining hc⟩
  case h_6 => obtain ⟨klen, ivlen, hc, -⟩ := hph; exact ⟨_, decode_of_chaining hc⟩
  case h_7 => obtain ⟨i, hc, -⟩ := hph; exact ⟨i, decode_of_chaining hc⟩

/-- Only a DECRYPT is ever in LENCHECK (R193). -/
theorem decrypt_of_lencheck {cap : Nat} {s : State} {i : Instr} (h : s.ConsistentOn cap)
    (hp : s.phase = .lencheck) (hd : decode s.cmd = .ok i) : ∃ klen ivlen, i = .decrypt klen ivlen := by
  obtain ⟨-, -, hph⟩ := h
  simp only [PhaseHolds, hp] at hph
  obtain ⟨-, klen, ivlen, hv, -⟩ := hph
  exact ⟨klen, ivlen, Except.ok.inj (hd.symm.trans hv)⟩

/-- In CHAIN the command latched in `CMD` is the one whose chain has begun, and a block is left (R42). -/
theorem chaining_of_chain {cap : Nat} {s : State} {i : Instr} (h : s.ConsistentOn cap)
    (hp : s.phase = .chain) (hd : decode s.cmd = .ok i) : Chaining cap i s ∧ s.blk < s.nblk := by
  obtain ⟨-, -, hph⟩ := h
  simp only [PhaseHolds, hp] at hph
  obtain ⟨j, hc, hlt, -⟩ := hph
  obtain rfl : i = j := Except.ok.inj (hd.symm.trans (decode_of_chaining hc))
  exact ⟨hc, hlt⟩

/-- Only a DECRYPT is ever in UNPAD, and it has a last block to strip (R196). -/
theorem chaining_of_unpad {cap : Nat} {s : State} {i : Instr} (h : s.ConsistentOn cap)
    (hp : s.phase = .unpad) (hd : decode s.cmd = .ok i) :
    (∃ klen ivlen, i = .decrypt klen ivlen) ∧ Chaining cap i s ∧ 1 ≤ s.nblk := by
  obtain ⟨-, -, hph⟩ := h
  simp only [PhaseHolds, hp] at hph
  obtain ⟨klen, ivlen, hc, -, hn, -⟩ := hph
  obtain rfl : i = .decrypt klen ivlen := Except.ok.inj (hd.symm.trans (decode_of_chaining hc))
  exact ⟨⟨klen, ivlen, rfl⟩, hc, hn⟩

/-- Every block of a command whose chain has begun lies in the stores (R70). -/
theorem blocks_le_of_chaining {P : Platform} {i : Instr} {s : State} (h : Chaining P.bufcap i s) :
    16 * s.nblk ≤ P.bufcap := by
  obtain ⟨-, ⟨-, ha, -⟩, -, hn, -⟩ := h
  exact hn ▸ blocksOf_le ha

/-- A command whose chain has begun has a key to make its requests with (R153). -/
theorem keyOperand_of_chaining {cap : Nat} {i : Instr} {s : State} (h : Chaining cap i s) :
    ∃ key, keyOperand s.key i.klen = some key := by
  obtain ⟨-, ⟨-, -, -, hk⟩, -⟩ := h
  exact keyOperand_isSome hk

/-! ### The steps that have a guard -/

/-- The CHAIN step of ENCRYPT, its guards met (R194). -/
theorem encryptChain_of_guards {P : Platform} {klen : Nat} {key : Key} {s : State} (hb : s.blk < s.nblk)
    (hc : 16 * s.nblk ≤ P.bufcap) (hk : keyOperand s.key klen = some key) :
    encryptChain P klen s = .next (encryptRequest P key s) := by
  have hin : ¬ P.bufcap < 16 * s.blk + 16 := by omega
  simp [encryptChain, Nat.not_le.2 hb, hin, hk]

/-- The CHAIN step of DECRYPT, its guards met (R195). -/
theorem decryptChain_of_guards {P : Platform} {klen : Nat} {key : Key} {s : State} (hb : s.blk < s.nblk)
    (hc : 16 * s.nblk ≤ P.bufcap) (hk : keyOperand s.key klen = some key) :
    decryptChain P klen s = .next (decryptRequest P key s) := by
  have hin : ¬ P.bufcap < 16 * s.blk + 16 := by omega
  simp [decryptChain, Nat.not_le.2 hb, hin, hk]

/-- The UNPAD step, its guards met (R196). -/
theorem decryptUnpad_of_guards {P : Platform} {s : State} (hn : 1 ≤ s.nblk) (hc : 16 * s.nblk ≤ P.bufcap) :
    decryptUnpad P s = .next (unpadLast s) := by
  simp [decryptUnpad, Nat.ne_of_gt hn, Nat.not_lt.2 hc]

/-! ### Progress of the engine and of the machine -/

/-- An ENCRYPT is never in LENCHECK or UNPAD, and its CHAIN step has a block in the stores and a key. -/
theorem encryptStep_progress {P : Platform} {klen ivlen : Nat} {s : State} (h : s.ConsistentOn P.bufcap)
    (hd : decode s.cmd = .ok (.encrypt klen ivlen)) : ∃ t, encryptStep P klen ivlen s = .next t := by
  unfold encryptStep
  split <;> rename_i hp
  case h_1 | h_2 | h_3 | h_7 => exact ⟨_, rfl⟩
  case h_4 =>
    obtain ⟨_, _, hi⟩ := decrypt_of_lencheck h hp hd
    cases hi
  case h_5 =>
    obtain ⟨hc, hb⟩ := chaining_of_chain h hp hd
    obtain ⟨key, hk⟩ := keyOperand_of_chaining hc
    exact ⟨_, encryptChain_of_guards hb (blocks_le_of_chaining hc) hk⟩
  case h_6 =>
    obtain ⟨⟨_, _, hi⟩, -⟩ := chaining_of_unpad h hp hd
    cases hi

/-- The CHAIN and UNPAD steps of a DECRYPT have a block in the stores, and the CHAIN step a key. -/
theorem decryptStep_progress {P : Platform} {klen ivlen : Nat} {s : State} (h : s.ConsistentOn P.bufcap)
    (hd : decode s.cmd = .ok (.decrypt klen ivlen)) : ∃ t, decryptStep P klen ivlen s = .next t := by
  unfold decryptStep
  split <;> rename_i hp
  case h_1 | h_2 | h_3 | h_4 | h_7 => exact ⟨_, rfl⟩
  case h_5 =>
    obtain ⟨hc, hb⟩ := chaining_of_chain h hp hd
    obtain ⟨key, hk⟩ := keyOperand_of_chaining hc
    exact ⟨_, decryptChain_of_guards hb (blocks_le_of_chaining hc) hk⟩
  case h_6 =>
    obtain ⟨-, hc, hn⟩ := chaining_of_unpad h hp hd
    exact ⟨_, decryptUnpad_of_guards hn (blocks_le_of_chaining hc)⟩

/-- An illegal word is latched in IDLE or DECODE only, and no rule is missing there (R191, R237). -/
theorem illegalStep_progress {cap : Nat} {s : State} {e : Illegal} (h : s.ConsistentOn cap)
    (hd : decode s.cmd = .error e) : ∃ t, illegalStep s = .next t := by
  unfold illegalStep
  split <;> rename_i hp
  case h_1 | h_2 | h_7 => exact ⟨_, rfl⟩
  all_goals
    obtain ⟨i, hok⟩ := exists_decode_of_consistentOn h (by simp [hp]) (by simp [hp])
    cases hd.symm.trans hok

/-- The engine's step from a consistent state, on every platform. -/
theorem engineStep_progress {P : Platform} {s : State} (h : s.ConsistentOn P.bufcap) :
    ∃ t, engineStep (execOn P) s = .next t := by
  obtain ⟨-, he⟩ | ⟨-, i, hd, he⟩ | ⟨-, e, hd, he⟩ := engineStep_cases (rfl : engineStep (execOn P) s = _)
  · exact ⟨s, he⟩
  · rw [he]
    cases i with
    | encrypt klen ivlen => exact encryptStep_progress h hd
    | decrypt klen ivlen => exact decryptStep_progress h hd
  · rw [he]
    exact illegalStep_progress h hd

/-- The machine's step from a consistent state, on every platform and whatever is next from outside. -/
theorem stepOn_progress {P : Platform} {s : State} (h : s.ConsistentOn P.bufcap) : ∃ t, stepOn P s = .next t := by
  obtain ⟨-, he⟩ | ⟨rest, -, he⟩ | ⟨a, rest, -, he⟩ | ⟨rest, -, he⟩ | ⟨rest, -, he⟩ | ⟨rest, -, he⟩ :=
    advance_cases (rfl : stepOn P s = _)
  · rw [he]
    exact engineStep_progress h
  · rw [he]
    exact engineStep_progress (consistentOn_of_engine_eq h rfl)
  all_goals exact ⟨_, he⟩

/-- Settles O34: the machine is the machine on `Config.platform`, and no platform's machine stops in a consistent
state. -/
theorem noConsistentStateStops : Obligations.NoConsistentStateStops := by
  unfold Obligations.NoConsistentStateStops
  intro s h
  rw [step_eq_stepOn]
  exact stepOn_progress h

end Sys2Proof.Machine

/-! PROOFS. The state of the engine: what one engine step and one step of the machine can do, the frame of both, and the
invariant (spec/10_state.md R20 to R50, spec/20_memory.md R63 to R69, spec/43_mode_facade.md R190 to R197). -/

namespace Sys2Proof.Machine

/-! ### What an engine step can do, whatever the command -/

/-- The moves of an engine: every step R191 to R197 of either command, and of an illegal word, is one of these. -/
inductive EngineMove (s : State) : State → Prop
  /-- An idle engine does nothing (R237). -/
  | stay (idle : s.phase = .idle) : EngineMove s s
  /-- A check is passed, and the chain is set up where it was the last one (R191 to R193). -/
  | pass (nblk : Nat) (chain : Block) (phase : Phase) (busy : phase ≠ .idle) :
      EngineMove s { s with nblk := nblk, chain := chain, phase := phase }
  /-- A check fails: FAIL with no wrapped error (R226). -/
  | reject (code : ResultCode) : EngineMove s (fail code 0 s)
  /-- The cipher answers `Err` (R194, R195). -/
  | cipherFailure (c : CipherCall) (ce : CipherError) :
      EngineMove s (fail .underlyingCipherFailure ce (emit c s))
  /-- The cipher answers `Ok`, and block `BLK` is stored (R194, R195). -/
  | store (c : CipherCall) (obuf : Memory) (chain : Block) (wlen : Nat) (phase : Phase) (busy : phase ≠ .idle) :
      EngineMove s { emit c s with
        obuf := obuf, chain := chain, blk := s.blk + 1, wlen := wlen, phase := phase }
  /-- The padding is stripped (R196). -/
  | strip (obuf : Memory) (wlen : Nat) : EngineMove s { s with obuf := obuf, wlen := wlen, phase := .commit }
  /-- The result is published (R197). -/
  | publish : EngineMove s (commit s)

theorem encryptDecode_move (P : Platform) (s : State) : EngineMove s (encryptDecode P s) := by
  unfold encryptDecode
  split
  · exact .reject _
  · exact .pass s.nblk s.chain .validate (by simp)

theorem decryptDecode_move (P : Platform) (s : State) : EngineMove s (decryptDecode P s) := by
  unfold decryptDecode
  split
  · exact .reject _
  · exact .pass s.nblk s.chain .validate (by simp)

theorem encryptValidate_move (klen ivlen : Nat) (s : State) : EngineMove s (encryptValidate klen ivlen s) := by
  unfold encryptValidate
  split
  · exact .pass _ _ .chain (by simp)
  · exact .reject _

theorem decryptValidate_move (klen ivlen : Nat) (s : State) : EngineMove s (decryptValidate klen ivlen s) := by
  unfold decryptValidate
  split
  · exact .pass s.nblk s.chain .lencheck (by simp)
  · exact .reject _

theorem decryptLencheck_move (s : State) : EngineMove s (decryptLencheck s) := by
  unfold decryptLencheck
  split
  · exact .reject _
  · exact .pass _ _ .chain (by simp)

theorem encryptRequest_move (P : Platform) (key : Key) {s : State} (hp : s.phase = .chain) :
    EngineMove s (encryptRequest P key s) := by
  obtain ⟨ce, -, he⟩ | ⟨e, -, he⟩ := encryptRequest_cases P key s <;> rw [he]
  · exact .cipherFailure _ ce
  · unfold encryptStore
    split
    · exact .store _ _ e _ .commit (by simp)
    · exact .store _ _ e s.wlen s.phase (by simp [hp])

theorem decryptRequest_move (P : Platform) (key : Key) {s : State} (hp : s.phase = .chain) :
    EngineMove s (decryptRequest P key s) := by
  obtain ⟨ce, -, he⟩ | ⟨d, -, he⟩ := decryptRequest_cases P key s <;> rw [he]
  · exact .cipherFailure _ ce
  · unfold decryptStore
    split
    · exact .store _ _ _ s.wlen .unpad (by simp)
    · exact .store _ _ _ s.wlen s.phase (by simp [hp])

theorem unpadLast_move (s : State) : EngineMove s (unpadLast s) := by
  obtain ⟨-, he⟩ | ⟨n, -, he⟩ := unpadLast_cases s <;> rw [he]
  · exact .reject _
  · exact .strip _ _

/-- One step of either command, in any state, is a move. -/
theorem execOn_move {P : Platform} {i : Instr} {s t : State} (h : execOn P i s = .next t) : EngineMove s t := by
  cases i with
  | encrypt klen ivlen =>
    obtain ⟨hp, rfl⟩ | ⟨-, rfl⟩ | ⟨-, rfl⟩ | ⟨hp, -, -, key, -, rfl⟩ | ⟨-, rfl⟩ := encryptStep_cases h
    · exact .stay hp
    · exact encryptDecode_move P s
    · exact encryptValidate_move klen ivlen s
    · exact encryptRequest_move P key hp
    · exact .publish
  | decrypt klen ivlen =>
    obtain ⟨hp, he⟩ | ⟨-, he⟩ | ⟨-, he⟩ | ⟨-, he⟩ | ⟨hp, -, -, key, -, he⟩ | ⟨-, -, -, he⟩ | ⟨-, he⟩ :=
      decryptStep_cases h <;> rw [he]
    · exact .stay hp
    · exact decryptDecode_move P s
    · exact decryptValidate_move klen ivlen s
    · exact decryptLencheck_move s
    · exact decryptRequest_move P key hp
    · exact unpadLast_move s
    · exact .publish

/-- One step of the engine, whatever word is latched, is a move. -/
theorem engineStep_move {P : Platform} {s t : State} (h : engineStep (execOn P) s = .next t) : EngineMove s t := by
  obtain ⟨hp, he⟩ | ⟨-, i, -, he⟩ | ⟨-, e, -, he⟩ := engineStep_cases h
  · rw [eq_of_next_eq he.symm]
    exact .stay hp
  · exact execOn_move he.symm
  · obtain ⟨hp, rfl⟩ | ⟨-, rfl⟩ | ⟨-, rfl⟩ := illegalStep_cases he.symm
    · exact .stay hp
    · exact .reject _
    · exact .publish

/-- What no engine step touches: the operands, the command word, and what lies outside the engine (R46). -/
structure EngineFrame (s t : State) : Prop where
  key : t.key = s.key
  iv : t.iv = s.iv
  ibuf : t.ibuf = s.ibuf
  ilen : t.ilen = s.ilen
  cmd : t.cmd = s.cmd
  reads : t.reads = s.reads
  pending : t.pending = s.pending

theorem EngineMove.frame {s t : State} (h : EngineMove s t) : EngineFrame s t := by
  cases h <;> exact ⟨rfl, rfl, rfl, rfl, rfl, rfl, rfl⟩

/-- A move records at most one request, and one only where a CHAIN step fails or stores its block (R152). -/
theorem EngineMove.trace {s t : State} (h : EngineMove s t) :
    t.trace = s.trace ∨
      ∃ c, t.trace = s.trace ++ [c] ∧ (t.status.code = .underlyingCipherFailure ∨ t.blk = s.blk + 1) := by
  cases h with
  | cipherFailure c ce => exact .inr ⟨c, rfl, .inl rfl⟩
  | store c obuf chain wlen phase busy => exact .inr ⟨c, rfl, .inr rfl⟩
  | stay | pass | reject | strip | publish => exact .inl rfl

/-- A busy engine becomes idle only by FAIL or COMMIT, and both set `DONE` (R197, R226). -/
theorem EngineMove.done_of_idle {s t : State} (h : EngineMove s t) (hs : s.phase ≠ .idle) (ht : t.phase = .idle) :
    t.status.done = true := by
  cases h with
  | stay idle => exact absurd idle hs
  | pass nblk chain phase busy => exact absurd ht busy
  | store c obuf chain wlen phase busy => exact absurd ht busy
  | strip => cases ht
  | reject | cipherFailure | publish => rfl

/-- Settles O18: the frame and the trace of a move. -/
theorem engineStepFrame : Obligations.EngineStepFrame := by
  unfold Obligations.EngineStepFrame
  intro i s t h
  rw [exec_eq_execOn] at h
  have hm := execOn_move h
  obtain ⟨hkey, hiv, hibuf, hilen, hcmd, hreads, hpending⟩ := hm.frame
  exact ⟨hkey, hiv, hibuf, hilen, hcmd, hreads, hpending, hm.trace⟩

/-! ### What a step of the machine can do -/

/-- The moves of the machine: an engine step or an event from outside (R73). -/
inductive MachineMove (P : Platform) (s : State) : State → Prop
  /-- The engine takes a step. -/
  | engine (pending : List HostEvent) (t : State)
      (run : engineStep (execOn P) { s with pending := pending } = .next t) : MachineMove P s t
  /-- A read, or a write that is ignored: nothing of the engine changes (R36, R63 to R69). -/
  | observe (reads : List HostRead) (pending : List HostEvent) :
      MachineMove P s { s with reads := reads, pending := pending }
  /-- An idle engine accepts a command word (R190). -/
  | begin (w : Word) (rest : List HostEvent) (idle : s.status.busy = false)
      (next : s.pending = .access (.writeReg 0 w) :: rest) : MachineMove P s (start w { s with pending := rest })
  /-- An idle engine accepts an operand (R63, R65, R68). -/
  | load (key : Vector Byte 32) (iv : Block) (ibuf : Memory) (ilen : Word) (pending : List HostEvent)
      (idle : s.status.busy = false) (wf : s.ibuf.wf → ibuf.wf) (below : s.ibuf.Below P.bufcap → ibuf.Below P.bufcap) :
      MachineMove P s { s with key := key, iv := iv, ibuf := ibuf, ilen := ilen, pending := pending }
  /-- The platform resets the engine (R250). -/
  | reset (rest : List HostEvent) (next : s.pending = .reset :: rest) :
      MachineMove P s (resetEngine { s with pending := rest })

/-- A write of a register by the host is a move. -/
theorem hostWriteReg_move {P : Platform} {s : State} {n : Nat} {v : Word} {rest : List HostEvent}
    (next : s.pending = .access (.writeReg n v) :: rest) :
    MachineMove P s (hostWriteReg n v { s with pending := rest }) := by
  obtain ⟨-, he⟩ | ⟨hb, rfl, he⟩ | ⟨hb, -, he⟩ | ⟨-, -, he⟩ := hostWriteReg_cases n v { s with pending := rest } <;>
    rw [he]
  · exact .observe s.reads rest
  · exact .begin v rest hb next
  · exact .load s.key s.iv s.ibuf v rest hb id id
  · exact .observe s.reads rest

/-- A write of a byte by the host is a move. -/
theorem hostWriteByte_move (P : Platform) (s : State) (store : Store) (i : Nat) (v : Byte) (rest : List HostEvent) :
    MachineMove P s (hostWriteByte P.bufcap store i v { s with pending := rest }) := by
  obtain he | ⟨hb, ⟨-, -, he⟩ | ⟨-, -, he⟩ | ⟨-, hi, he⟩⟩ :=
    hostWriteByte_cases P.bufcap store i v { s with pending := rest } <;> rw [he]
  · exact .observe s.reads rest
  · exact .load _ s.iv s.ibuf s.ilen rest hb id id
  · exact .load s.key _ s.ibuf s.ilen rest hb id id
  · exact .load s.key s.iv _ s.ilen rest hb (Memory.write_wf · i v) (Memory.write_below · hi v)

theorem performAccess_move {P : Platform} {s : State} {a : Access} {rest : List HostEvent}
    (next : s.pending = .access a :: rest) :
    MachineMove P s (performAccess P.bufcap a { s with pending := rest }) := by
  cases a with
  | writeReg n v => exact hostWriteReg_move next
  | readReg n => exact .observe _ rest
  | writeByte store i v => exact hostWriteByte_move P s store i v rest
  | readByte store i => exact .observe _ rest

/-- One step of the machine, whatever is next from outside, is a move. -/
theorem stepOn_move {P : Platform} {s t : State} (h : stepOn P s = .next t) : MachineMove P s t := by
  obtain ⟨-, he⟩ | ⟨rest, -, he⟩ | ⟨a, rest, hp, he⟩ | ⟨rest, -, he⟩ | ⟨rest, -, he⟩ | ⟨rest, hp, he⟩ := advance_cases h
  · exact .engine s.pending t he.symm
  · exact .engine rest t he.symm
  · rw [eq_of_next_eq he.symm]
    exact performAccess_move hp
  · rw [eq_of_next_eq he.symm]
    exact .observe _ _
  · rw [eq_of_next_eq he.symm]
    exact .observe _ _
  · rw [eq_of_next_eq he.symm]
    exact .reset rest hp

/-! ### The invariant, kept by the moves of the engine -/

/-- The invariant between two states of a command in progress: `STATUS` does not change (R33). -/
theorem consistentOn_of_running {cap : Nat} {s t : State} (h : s.ConsistentOn cap) (hs : s.phase ≠ .idle)
    (ht : t.phase ≠ .idle) (status : t.status = s.status) (stores : StoresHold cap t) (phase : PhaseHolds cap t) :
    t.ConsistentOn cap := by
  obtain ⟨⟨hbusy, hdone, hcode⟩, -, -⟩ := h
  refine ⟨⟨?_, ?_, ?_⟩, stores, phase⟩ <;> rw [status]
  · exact ⟨fun _ => ht, fun _ => hbusy.2 hs⟩
  · exact hdone
  · exact hcode

theorem cleared_of_decode {cap : Nat} {s : State} (h : s.ConsistentOn cap) (hp : s.phase = .decode) : Cleared s := by
  obtain ⟨-, -, hph⟩ := h
  simpa only [PhaseHolds, hp] using hph

theorem admitted_of_validate {cap : Nat} {s : State} {i : Instr} (h : s.ConsistentOn cap) (hp : s.phase = .validate)
    (hd : decode s.cmd = .ok i) : Cleared s ∧ Admitted cap i s.msgLen := by
  obtain ⟨-, -, hph⟩ := h
  simp only [PhaseHolds, hp] at hph
  obtain ⟨hcl, j, hj, ha⟩ := hph
  obtain rfl : i = j := Except.ok.inj (hd.symm.trans hj)
  exact ⟨hcl, ha⟩

theorem validated_of_lencheck {cap : Nat} {s : State} {i : Instr} (h : s.ConsistentOn cap) (hp : s.phase = .lencheck)
    (hd : decode s.cmd = .ok i) : Cleared s ∧ Validated cap i s := by
  obtain ⟨-, -, hph⟩ := h
  simp only [PhaseHolds, hp] at hph
  obtain ⟨hcl, klen, ivlen, hv⟩ := hph
  have ⟨hj, _⟩ := hv
  obtain rfl : i = .decrypt klen ivlen := Except.ok.inj (hd.symm.trans hj)
  exact ⟨hcl, hv⟩

/-- DECODE passed, by either command (R191). -/
theorem decodePassed_consistentOn {cap : Nat} {s : State} {i : Instr} (h : s.ConsistentOn cap) (hp : s.phase = .decode)
    (hd : decode s.cmd = .ok i) (ha : Admitted cap i s.msgLen) :
    State.ConsistentOn cap { s with phase := .validate } := by
  have hcl : Cleared s := cleared_of_decode h hp
  exact consistentOn_of_running h (by simp [hp]) (by simp) rfl h.2.1 ⟨hcl, i, hd, ha⟩

/-- A command with its length checked has at least one block (R42, R193). -/
theorem blocksOf_pos {i : Instr} {len : Nat} (h : LengthChecked i len) : 0 < blocksOf i len := by
  cases i with
  | encrypt => exact Nat.succ_pos _
  | decrypt =>
    obtain ⟨-, h16⟩ := h
    simp only [blocksOf, decryptBlocks]
    omega

/-- The last check passed, by either command: the chain begins at the IV (R161, R192, R193). -/
theorem chainBegun_consistentOn {cap : Nat} {s : State} {i : Instr} (h : s.ConsistentOn cap) (hp : s.phase ≠ .idle)
    (hcl : Cleared s) (hv : Validated cap i s) (hlen : LengthChecked i s.msgLen) :
    State.ConsistentOn cap { s with nblk := blocksOf i s.msgLen, chain := s.iv, phase := .chain } := by
  obtain ⟨hpub, hobuf, hblk, -, hwlen, -⟩ := hcl
  refine consistentOn_of_running h hp (by simp) rfl h.2.1 ⟨i, ⟨hpub, hv, hlen, rfl, ?_⟩, ?_, ?_, hwlen⟩
  · simp [ChainHolds, hblk]
  · simpa [hblk] using blocksOf_pos hlen
  · simp [hobuf]

theorem encryptDecode_consistentOn {P : Platform} {s : State} {klen ivlen : Nat} (h : s.ConsistentOn P.bufcap)
    (hp : s.phase = .decode) (hd : decode s.cmd = .ok (.encrypt klen ivlen)) :
    (encryptDecode P s).ConsistentOn P.bufcap := by
  unfold encryptDecode
  split
  · exact fail_consistentOn (fun _ => rfl) h.2.1
  · exact decodePassed_consistentOn h hp hd (Nat.lt_of_not_le ‹_›)

theorem decryptDecode_consistentOn {P : Platform} {s : State} {klen ivlen : Nat} (h : s.ConsistentOn P.bufcap)
    (hp : s.phase = .decode) (hd : decode s.cmd = .ok (.decrypt klen ivlen)) :
    (decryptDecode P s).ConsistentOn P.bufcap := by
  unfold decryptDecode
  split
  · exact fail_consistentOn (fun _ => rfl) h.2.1
  · exact decodePassed_consistentOn h hp hd (Nat.le_of_not_lt ‹_›)

theorem encryptValidate_consistentOn {cap : Nat} {s : State} {klen ivlen : Nat} (h : s.ConsistentOn cap)
    (hp : s.phase = .validate) (hd : decode s.cmd = .ok (.encrypt klen ivlen)) :
    (encryptValidate klen ivlen s).ConsistentOn cap := by
  obtain ⟨hcl, ha⟩ := admitted_of_validate h hp hd
  unfold encryptValidate
  split
  · exact chainBegun_consistentOn (i := .encrypt klen ivlen) h (by simp [hp]) hcl ⟨hd, ha, ‹_›⟩ trivial
  · exact fail_consistentOn (fun _ => rfl) h.2.1

theorem decryptValidate_consistentOn {cap : Nat} {s : State} {klen ivlen : Nat} (h : s.ConsistentOn cap)
    (hp : s.phase = .validate) (hd : decode s.cmd = .ok (.decrypt klen ivlen)) :
    (decryptValidate klen ivlen s).ConsistentOn cap := by
  obtain ⟨hcl, ha⟩ := admitted_of_validate h hp hd
  unfold decryptValidate
  split
  · exact consistentOn_of_running h (by simp [hp]) (by simp) rfl h.2.1 ⟨hcl, klen, ivlen, hd, ha, ‹_›⟩
  · exact fail_consistentOn (fun _ => rfl) h.2.1

theorem decryptLencheck_consistentOn {cap : Nat} {s : State} {klen ivlen : Nat} (h : s.ConsistentOn cap)
    (hp : s.phase = .lencheck) (hd : decode s.cmd = .ok (.decrypt klen ivlen)) :
    (decryptLencheck s).ConsistentOn cap := by
  obtain ⟨hcl, hv⟩ := validated_of_lencheck h hp hd
  unfold decryptLencheck
  split
  · exact fail_consistentOn (fun _ => rfl) h.2.1
  · rename_i hlen
    exact chainBegun_consistentOn (i := .decrypt klen ivlen) h (by simp [hp]) hcl hv
      (show _ ∧ _ by omega)

/-! ### Storing a block -/

/-- The engine has stored the block `b` it emitted for `BLK`, with `next` as chaining state; where the phase goes from
here, and what the result length is, depends on the command and on whether a block is left (R194, R195). -/
def blockStored (c : CipherCall) (b next : Block) (wlen : Nat) (phase : Phase) (s : State) : State :=
  { emit c s with
    obuf := s.obuf.writeBlock (16 * s.blk) b, chain := next, blk := s.blk + 1, wlen := wlen, phase := phase }

theorem encryptStore_eq (c : CipherCall) (e next : Block) (s : State) :
    encryptStore e next (emit c s) =
      if s.blk + 1 = s.nblk then blockStored c e next (16 * s.nblk) .commit s
      else blockStored c e next s.wlen s.phase s := rfl

theorem decryptStore_eq (c : CipherCall) (p next : Block) (s : State) :
    decryptStore p next (emit c s) =
      if s.blk + 1 = s.nblk then blockStored c p next s.wlen .unpad s
      else blockStored c p next s.wlen s.phase s := rfl

/-- The chain goes on from the ciphertext block of the block just stored (R158). -/
theorem chaining_blockStored {cap : Nat} {i : Instr} {s : State} (h : Chaining cap i s) (c : CipherCall)
    (b next : Block) (wlen : Nat) (phase : Phase)
    (hnext : next = ciphertextOf i (blockStored c b next wlen phase s) s.blk) :
    Chaining cap i (blockStored c b next wlen phase s) := by
  obtain ⟨hpub, hv, hlen, hn, -⟩ := h
  exact ⟨hpub, hv, hlen, hn, by simpa [ChainHolds, blockStored] using hnext⟩

/-- The engine's own writes leave the ciphertext of a DECRYPT alone. -/
theorem ciphertextOf_decrypt_blockStored (klen ivlen : Nat) (c : CipherCall) (b next : Block) (wlen : Nat)
    (phase : Phase) (s : State) (k : Nat) :
    ciphertextOf (.decrypt klen ivlen) (blockStored c b next wlen phase s) k = ciphertextBlock s k := rfl

/-- After a stored block `OBUF` lists nothing beyond the blocks stored so far. -/
theorem blockStored_below {s : State} (h : s.obuf.Below (16 * s.blk)) (c : CipherCall) (b next : Block) (wlen : Nat)
    (phase : Phase) : (blockStored c b next wlen phase s).obuf.Below (16 * (s.blk + 1)) :=
  Memory.writeBlock_below (Memory.below_mono h (by omega)) (by omega) b

/-- A stored block stays within the stores, so what is left to show is what the next phase says. -/
theorem blockStored_consistentOn {cap : Nat} {s : State} (h : s.ConsistentOn cap) (hp : s.phase = .chain)
    (hin : 16 * s.blk + 16 ≤ cap) {c : CipherCall} {b next : Block} {wlen : Nat} {phase : Phase} (hphase : phase ≠ .idle)
    (hph : PhaseHolds cap (blockStored c b next wlen phase s)) :
    (blockStored c b next wlen phase s).ConsistentOn cap := by
  obtain ⟨hiwf, howf, hicap, hocap⟩ := h.2.1
  exact consistentOn_of_running h (by simp [hp]) hphase rfl
    ⟨hiwf, Memory.writeBlock_wf howf _ b, hicap, Memory.writeBlock_below hocap hin b⟩ hph

/-- What the invariant says in CHAIN, for the latched command. -/
theorem chain_of_consistentOn {cap : Nat} {s : State} {i : Instr} (h : s.ConsistentOn cap) (hp : s.phase = .chain)
    (hd : decode s.cmd = .ok i) : Chaining cap i s ∧ s.blk < s.nblk ∧ s.obuf.Below (16 * s.blk) ∧ s.wlen = 0 := by
  obtain ⟨hc, hlt⟩ := chaining_of_chain h hp hd
  obtain ⟨-, -, hph⟩ := h
  simp only [PhaseHolds, hp] at hph
  obtain ⟨-, -, -, hbelow, hwlen⟩ := hph
  exact ⟨hc, hlt, hbelow, hwlen⟩

/-- A block is stored and another is left: CHAIN goes on, for either command (R194, R195). -/
theorem blockStored_consistentOn_of_lt {cap : Nat} {s : State} {i : Instr} (h : s.ConsistentOn cap)
    (hp : s.phase = .chain) (hd : decode s.cmd = .ok i) (hin : 16 * s.blk + 16 ≤ cap) (hlt : s.blk + 1 < s.nblk)
    (c : CipherCall) (b next : Block)
    (hnext : next = ciphertextOf i (blockStored c b next s.wlen .chain s) s.blk) :
    (blockStored c b next s.wlen .chain s).ConsistentOn cap := by
  obtain ⟨hc, -, hbelow, hwlen⟩ := chain_of_consistentOn h hp hd
  exact blockStored_consistentOn h hp hin (by simp)
    ⟨i, chaining_blockStored hc c b next _ _ hnext, hlt, blockStored_below hbelow c b next _ _, hwlen⟩

theorem encryptRequest_consistentOn {P : Platform} {s : State} {klen ivlen : Nat} (h : s.ConsistentOn P.bufcap)
    (hp : s.phase = .chain) (hd : decode s.cmd = .ok (.encrypt klen ivlen)) (hin : 16 * s.blk + 16 ≤ P.bufcap)
    (key : Key) : (encryptRequest P key s).ConsistentOn P.bufcap := by
  obtain ⟨hc, hlt, hbelow, -⟩ := chain_of_consistentOn h hp hd
  obtain ⟨ce, -, he⟩ | ⟨e, -, he⟩ := encryptRequest_cases P key s <;> rw [he]
  · exact fail_consistentOn (by simp) h.2.1
  · generalize (⟨.enc, key, xorBlock (plaintextBlock s s.blk) s.chain, .ok e⟩ : CipherCall) = c
    have hnext : ∀ wlen phase,
        e = ciphertextOf (.encrypt klen ivlen) (blockStored c e e wlen phase s) s.blk := fun wlen phase =>
      (Memory.readBlock_writeBlock h.2.1.2.1 (16 * s.blk) e).symm
    rw [encryptStore_eq]
    split
    · rename_i hlast
      have hbelow' := blockStored_below hbelow c e e (16 * s.nblk) .commit
      rw [hlast] at hbelow'
      exact blockStored_consistentOn h hp hin (by simp)
        ⟨_, chaining_blockStored hc c e e _ _ (hnext _ _), hlast, Nat.lt_of_le_of_lt (Nat.zero_le _) hlt, hbelow', rfl⟩
    · rw [hp]
      exact blockStored_consistentOn_of_lt h hp hd hin (by omega) c e e (hnext _ _)

theorem decryptRequest_consistentOn {P : Platform} {s : State} {klen ivlen : Nat} (h : s.ConsistentOn P.bufcap)
    (hp : s.phase = .chain) (hd : decode s.cmd = .ok (.decrypt klen ivlen)) (hin : 16 * s.blk + 16 ≤ P.bufcap)
    (key : Key) : (decryptRequest P key s).ConsistentOn P.bufcap := by
  obtain ⟨hc, hlt, hbelow, hwlen⟩ := chain_of_consistentOn h hp hd
  obtain ⟨ce, -, he⟩ | ⟨d, -, he⟩ := decryptRequest_cases P key s <;> rw [he]
  · exact fail_consistentOn (by simp) h.2.1
  · generalize (⟨.dec, key, ciphertextBlock s s.blk, .ok d⟩ : CipherCall) = c
    generalize xorBlock d s.chain = p
    have hnext := fun wlen phase =>
      (ciphertextOf_decrypt_blockStored klen ivlen c p (ciphertextBlock s s.blk) wlen phase s s.blk).symm
    rw [decryptStore_eq]
    split
    · rename_i hlast
      have hchain := chaining_blockStored hc c p (ciphertextBlock s s.blk) s.wlen .unpad (hnext _ _)
      have hbelow' := blockStored_below hbelow c p (ciphertextBlock s s.blk) s.wlen .unpad
      rw [hlast] at hbelow'
      exact blockStored_consistentOn h hp hin (by simp)
        ⟨klen, ivlen, hchain, hlast, Nat.lt_of_le_of_lt (Nat.zero_le _) hlt, hbelow', hwlen⟩
    · rw [hp]
      exact blockStored_consistentOn_of_lt h hp hd hin (by omega) c p (ciphertextBlock s s.blk) (hnext _ _)

/-! ### Stripping the padding, and publishing -/

/-- Zeros written over the end of a store shorten what it lists. -/
theorem Memory.writeZeros_below {m : Memory} {a n : Nat} (hwf : m.wf) (hm : m.Below (a + n)) :
    (m.writeBytes a (List.replicate n 0x00)).Below a := by
  refine Memory.below_of_read (Memory.writeBytes_wf _ hwf a) fun x hx => ?_
  rw [Memory.read_writeBytes _ hwf, if_pos hx, List.getElem?_replicate]
  split
  · rfl
  · exact Memory.read_of_below hm (by omega)

theorem unpadLast_consistentOn {P : Platform} {s : State} (h : s.ConsistentOn P.bufcap) (hp : s.phase = .unpad)
    (hin : 16 * s.nblk ≤ P.bufcap) : (unpadLast s).ConsistentOn P.bufcap := by
  have hph := h.2.2
  simp only [PhaseHolds, hp] at hph
  obtain ⟨klen, ivlen, hc, hblk, hn, hbelow, -⟩ := hph
  obtain ⟨-, he⟩ | ⟨n, hpad, he⟩ := unpadLast_cases s <;> rw [he]
  · exact fail_consistentOn (fun _ => rfl) h.2.1
  · obtain ⟨-, hn1, hn16, -⟩ := padLength_eq_some.1 hpad
    obtain ⟨hiwf, howf, hicap, -⟩ := h.2.1
    have hend : 16 * s.nblk - n + n = 16 * s.nblk := by omega
    have hstrip : (s.obuf.writeBytes (16 * s.nblk - n) (List.replicate n 0x00)).Below (16 * s.nblk - n) :=
      Memory.writeZeros_below howf (hend.symm ▸ hbelow)
    refine consistentOn_of_running h (by simp [hp]) (by simp) rfl
      ⟨hiwf, Memory.writeBytes_wf _ howf _, hicap, Memory.below_mono hstrip (by omega)⟩
      ⟨.decrypt klen ivlen, hc, hblk, hn, hstrip, ?_⟩
    simp only [ResultLength]
    omega

/-- The result of a command lies within the blocks it stored (R34). -/
theorem wlen_le_of_resultLength {i : Instr} {s : State} (h : ResultLength i s) : s.wlen ≤ 16 * s.nblk := by
  cases i with
  | encrypt => exact Nat.le_of_eq h
  | decrypt => exact Nat.le_of_lt h.2

theorem commit_consistentOn {P : Platform} {s : State} (h : s.ConsistentOn P.bufcap) (hp : s.phase = .commit) :
    (commit s).ConsistentOn P.bufcap := by
  obtain ⟨-, hstores, hph⟩ := h
  simp only [PhaseHolds, hp] at hph
  obtain ⟨i, hc, -, -, hbelow, hres⟩ := hph
  have hcap : s.wlen ≤ P.bufcap := (wlen_le_of_resultLength hres).trans (blocks_le_of_chaining hc)
  have holen : (BitVec.ofNat 32 s.wlen).toNat = s.wlen := by
    have := P.bufcap_bounds
    rw [BitVec.toNat_ofNat]
    omega
  obtain ⟨⟨-, hcerr⟩, -⟩ := hc
  refine ⟨by simp [StatusHolds], hstores, rfl, rfl, rfl, rfl, ?_, ?_, by simp, by simp, fun _ => hcerr⟩
  · simpa [holen] using hbelow
  · simpa [holen] using hcap

/-! ### The invariant, kept by every step -/

theorem encryptStep_consistentOn {P : Platform} {klen ivlen : Nat} {s t : State} (h : s.ConsistentOn P.bufcap)
    (hd : decode s.cmd = .ok (.encrypt klen ivlen)) (hs : encryptStep P klen ivlen s = .next t) :
    t.ConsistentOn P.bufcap := by
  obtain ⟨-, rfl⟩ | ⟨hp, rfl⟩ | ⟨hp, rfl⟩ | ⟨hp, -, hin, key, -, rfl⟩ | ⟨hp, rfl⟩ := encryptStep_cases hs
  · exact h
  · exact encryptDecode_consistentOn h hp hd
  · exact encryptValidate_consistentOn h hp hd
  · exact encryptRequest_consistentOn h hp hd hin key
  · exact commit_consistentOn h hp

theorem decryptStep_consistentOn {P : Platform} {klen ivlen : Nat} {s t : State} (h : s.ConsistentOn P.bufcap)
    (hd : decode s.cmd = .ok (.decrypt klen ivlen)) (hs : decryptStep P klen ivlen s = .next t) :
    t.ConsistentOn P.bufcap := by
  obtain ⟨-, he⟩ | ⟨hp, he⟩ | ⟨hp, he⟩ | ⟨hp, he⟩ | ⟨hp, -, hin, key, -, he⟩ | ⟨hp, -, hin, he⟩ | ⟨hp, he⟩ :=
    decryptStep_cases hs <;> rw [he]
  · exact h
  · exact decryptDecode_consistentOn h hp hd
  · exact decryptValidate_consistentOn h hp hd
  · exact decryptLencheck_consistentOn h hp hd
  · exact decryptRequest_consistentOn h hp hd hin key
  · exact unpadLast_consistentOn h hp hin
  · exact commit_consistentOn h hp

theorem engineStep_consistentOn {P : Platform} {s t : State} (h : s.ConsistentOn P.bufcap)
    (hs : engineStep (execOn P) s = .next t) : t.ConsistentOn P.bufcap := by
  obtain ⟨-, he⟩ | ⟨-, i, hd, he⟩ | ⟨-, e, -, he⟩ := engineStep_cases hs
  · rw [eq_of_next_eq he.symm]
    exact h
  · cases i with
    | encrypt klen ivlen => exact encryptStep_consistentOn h hd he.symm
    | decrypt klen ivlen => exact decryptStep_consistentOn h hd he.symm
  · obtain ⟨-, rfl⟩ | ⟨-, rfl⟩ | ⟨hp, rfl⟩ := illegalStep_cases he.symm
    · exact h
    · exact fail_consistentOn (fun _ => rfl) h.2.1
    · exact commit_consistentOn h hp

/-- An idle engine's operands are the host's: the invariant asks of them only that `IBUF` is canonical (R23). -/
theorem operandsLoaded_consistentOn {cap : Nat} {s : State} (h : s.ConsistentOn cap) (hb : s.status.busy = false)
    (key : Vector Byte 32) (iv : Block) {ibuf : Memory} (ilen : Word) (pending : List HostEvent)
    (wf : ibuf.wf) (below : ibuf.Below cap) :
    State.ConsistentOn cap { s with key := key, iv := iv, ibuf := ibuf, ilen := ilen, pending := pending } := by
  have hp := idle_of_not_busy h hb
  obtain ⟨hstatus, ⟨-, howf, -, hocap⟩, hph⟩ := h
  refine ⟨hstatus, ⟨wf, howf, below, hocap⟩, ?_⟩
  simp only [PhaseHolds, hp] at hph ⊢
  exact hph

theorem machineMove_consistentOn {P : Platform} {s t : State} (h : s.ConsistentOn P.bufcap)
    (hm : MachineMove P s t) : t.ConsistentOn P.bufcap := by
  cases hm with
  | engine pending t run => exact engineStep_consistentOn (consistentOn_of_engine_eq h rfl) run
  | observe reads pending => exact consistentOn_of_engine_eq h rfl
  | begin w rest idle next => exact start_consistentOn w h.2.1
  | load key iv ibuf ilen pending idle wf below =>
    obtain ⟨hiwf, -, hicap, -⟩ := h.2.1
    exact operandsLoaded_consistentOn h idle key iv ilen pending (wf hiwf) (below hicap)
  | reset rest next => exact resetEngine_consistentOn P.bufcap _

/-- Settles O33: the machine is the machine on `Config.platform`, and every move of it keeps the invariant. -/
theorem everyStepKeepsConsistency : Obligations.EveryStepKeepsConsistency := by
  unfold Obligations.EveryStepKeepsConsistency
  intro s t h hs
  rw [step_eq_stepOn] at hs
  exact machineMove_consistentOn h (stepOn_move hs)

/-! ### What the host cannot change, and what it keeps -/

/-- Settles O26: of the moves, only the host's two need an idle engine, and only they and reset touch an operand. -/
theorem operandsAreLockedWhileBusy : Obligations.OperandsAreLockedWhileBusy := by
  unfold Obligations.OperandsAreLockedWhileBusy
  intro s t hb hr hs
  rw [step_eq_stepOn] at hs
  cases stepOn_move hs with
  | engine pending t run =>
    obtain ⟨hkey, hiv, hibuf, hilen, hcmd, -, -⟩ := (engineStep_move run).frame
    exact ⟨hkey, hiv, hibuf, hilen, hcmd⟩
  | observe reads pending => exact ⟨rfl, rfl, rfl, rfl, rfl⟩
  | begin w rest idle next => simp [hb] at idle
  | load key iv ibuf ilen pending idle wf below => simp [hb] at idle
  | reset rest next => exact absurd next (hr rest)

/-- The engine's step at an idle engine (R237). -/
theorem engineStep_of_idle {run : Instr → State → Host.Outcome State Fault Refusal} {s : State}
    (hp : s.phase = .idle) : engineStep run s = .next s := by
  simp [engineStep, hp]

/-- Settles O27: an idle engine's own step is none, and an operand is not part of the result. -/
theorem resultIsRetainedWhileIdle : Obligations.ResultIsRetainedWhileIdle := by
  unfold Obligations.ResultIsRetainedWhileIdle
  intro s t hp hr hw hs
  rw [step_eq_stepOn] at hs
  cases stepOn_move hs with
  | engine pending t run =>
    rw [eq_of_next_eq ((engineStep_of_idle (s := { s with pending := pending }) hp).symm.trans run)]
    exact ⟨⟨rfl, rfl, rfl, rfl⟩, hp⟩
  | observe reads pending => exact ⟨⟨rfl, rfl, rfl, rfl⟩, hp⟩
  | begin w rest idle next => exact absurd next (hw w rest)
  | load key iv ibuf ilen pending idle wf below => exact ⟨⟨rfl, rfl, rfl, rfl⟩, hp⟩
  | reset rest next => exact absurd next (hr rest)

/-- Settles O36: the only move of a busy engine that ends idle is the engine's own, by FAIL or COMMIT. -/
theorem onlyResetEndsACommandWithoutCode : Obligations.OnlyResetEndsACommandWithoutCode := by
  unfold Obligations.OnlyResetEndsACommandWithoutCode
  intro s t h hb hr hs ht
  have hbusy : s.phase ≠ .idle := h.1.1.1 hb
  rw [step_eq_stepOn] at hs
  cases stepOn_move hs with
  | engine pending t run => exact (engineStep_move run).done_of_idle hbusy ht
  | observe reads pending => exact absurd ht hbusy
  | begin w rest idle next => cases ht
  | load key iv ibuf ilen pending idle wf below => exact absurd ht hbusy
  | reset rest next => exact absurd next (hr rest)

/-! ### What the invariant shows the host -/

/-- An idle engine that shows no `Ok` result has an empty result (R34, R226). -/
theorem olen_eq_zero_of_not_ok {cap : Nat} {s : State} (h : s.ConsistentOn cap) (hp : s.phase = .idle)
    (hn : s.status.done = false ∨ s.status.code ≠ .ok) : s.olen = 0 := by
  obtain ⟨-, -, hph⟩ := h
  simp only [PhaseHolds, hp] at hph
  obtain ⟨-, -, -, -, -, -, hdone, hcode, -⟩ := hph
  obtain hd | hc := hn
  · exact (hdone hd).1
  · exact hcode hc

/-- `OBUF` is zero from `OLEN` on in an idle engine (R24). -/
theorem obuf_read_of_idle {cap : Nat} {s : State} (h : s.ConsistentOn cap) (hp : s.phase = .idle) {a : Nat}
    (ha : s.olen.toNat ≤ a) : s.obuf.read a = 0 := by
  obtain ⟨-, -, hph⟩ := h
  simp only [PhaseHolds, hp] at hph
  obtain ⟨-, -, -, -, hbelow, -⟩ := hph
  exact Memory.read_of_below hbelow ha

/-- Settles O28: the read gate while busy, else an empty result. -/
theorem noPartialOutputIsReadable : Obligations.NoPartialOutputIsReadable := by
  unfold Obligations.NoPartialOutputIsReadable
  intro s h hn a
  unfold hostReadByte
  split
  · rfl
  · split
    · rfl
    · rename_i hgate
      have hb : s.status.busy = false := by simpa using hgate
      have hp := idle_of_not_busy h hb
      have holen : s.olen = 0 := olen_eq_zero_of_not_ok h hp (by simpa [hb] using hn)
      exact obuf_read_of_idle h hp (by simp [holen])

/-- The `STATUS` of a consistent state is idle and fresh, running, or completed with a code (R33). -/
theorem status_cases {s : State} (h : StatusHolds s) :
    s.status = ⟨false, false, .ok⟩ ∨ s.status = .running ∨ ∃ code, s.status = .completed code := by
  obtain ⟨-, hdone, hcode⟩ := h
  rcases hs : s.status with ⟨busy, done, code⟩
  simp only [hs] at hdone hcode
  cases done with
  | true =>
    have hb : busy = false := by simpa using hdone
    exact .inr (.inr ⟨code, by rw [hb]; rfl⟩)
  | false =>
    rw [hcode rfl]
    cases busy with
    | true => exact .inr (.inl rfl)
    | false => exact .inl rfl

/-- What the `STATUS` words say, word by word (R33). -/
theorem status_word_cases {s : State} (h : StatusHolds s) :
    (s.status.word = 0x00000000 ∨ s.status.word = 0x00000001 ∨ s.status.word = 0x00000002 ∨
      s.status.word = 0x00000012 ∨ s.status.word = 0x00000022 ∨ s.status.word = 0x00000032 ∨
      s.status.word = 0x00000042 ∨ s.status.word = 0x00000052 ∨ s.status.word = 0x00000062) ∧
    s.status.word.getLsbD 0 = s.status.busy ∧ s.status.word.getLsbD 1 = s.status.done ∧
    (s.status.done = false → s.status.word.extractLsb' 4 4 = 0) := by
  obtain hs | hs | ⟨code, hs⟩ := status_cases h <;> rw [hs]
  · decide
  · decide
  · cases code <;> decide

/-- Settles O35: `STATUS` word by word, and `BUSY` against the phase. -/
theorem statusTakesOnlyItsWords : Obligations.StatusTakesOnlyItsWords := by
  unfold Obligations.StatusTakesOnlyItsWords
  rintro s ⟨hstatus, -, -⟩
  obtain ⟨hwords, hbit0, hbit1, hcode⟩ := status_word_cases hstatus
  obtain ⟨hbusy, hdone, -⟩ := hstatus
  refine ⟨hwords, by rw [hbit0]; exact hbusy, hbit1, ?_, hcode⟩
  rintro ⟨hb, hd⟩
  simp [hdone hb] at hd

/-! ### Reset -/

/-- Settles O31: the step under a reset, field by field. -/
theorem resetGivesEveryFieldItsValue : Obligations.ResetGivesEveryFieldItsValue := by
  unfold Obligations.ResetGivesEveryFieldItsValue
  intro s rest hp
  exact ⟨resetEngine { s with pending := rest }, by simp only [step, advance, hp],
    by simp, by simp, fun a => rfl, fun a => rfl, rfl, rfl, rfl, rfl, rfl, rfl, rfl, rfl, rfl, rfl, by simp, rfl, rfl⟩

/-- Settles O32: the reset state is what a reset leaves of itself. -/
theorem resetStateIsConsistent : Obligations.ResetStateIsConsistent :=
  resetEngine_consistentOn Config.platform.bufcap State.reset

end Sys2Proof.Machine

/-! PROOFS. A command is a function of its operands (spec/10_state.md R45): an engine with the same operands as `s`, and
anything else in the rest of its stores and in its records, takes the same steps as `s`. -/

namespace Sys2Proof.Machine

/-! ### Two engines with the same operands -/

/-- The engine `s` with other bytes in `KEY` and `IBUF` and other records; all its registers are those of `s`. -/
def State.twin (key : Vector Byte 32) (ibuf : Memory) (reads : List HostRead) (trace : List CipherCall) (s : State) :
    State :=
  { s with key := key, ibuf := ibuf, reads := reads, trace := trace }

section Twin
variable (key : Vector Byte 32) (ibuf : Memory) (reads : List HostRead) (trace : List CipherCall) (s : State)

@[simp] theorem twin_key : (s.twin key ibuf reads trace).key = key := rfl
@[simp] theorem twin_ibuf : (s.twin key ibuf reads trace).ibuf = ibuf := rfl
@[simp] theorem twin_cmd : (s.twin key ibuf reads trace).cmd = s.cmd := rfl
@[simp] theorem twin_phase : (s.twin key ibuf reads trace).phase = s.phase := rfl
@[simp] theorem twin_blk : (s.twin key ibuf reads trace).blk = s.blk := rfl
@[simp] theorem twin_nblk : (s.twin key ibuf reads trace).nblk = s.nblk := rfl
@[simp] theorem twin_chain : (s.twin key ibuf reads trace).chain = s.chain := rfl
@[simp] theorem twin_pending : (s.twin key ibuf reads trace).pending = s.pending := rfl
@[simp] theorem twin_msgLen : (s.twin key ibuf reads trace).msgLen = s.msgLen := rfl
@[simp] theorem twin_lastBlock : lastBlock (s.twin key ibuf reads trace) = lastBlock s := rfl

end Twin

/-- `key` and `ibuf` hold the operands of the command latched in `s` (R45), and a DECRYPT chains over whole blocks of
its message only (R42). -/
structure SameInput (key : Vector Byte 32) (ibuf : Memory) (s : State) : Prop where
  key : s.key.toList.take (klenField s.cmd) = key.toList.take (klenField s.cmd)
  message : ∀ k, k < s.msgLen → ibuf.read k = s.ibuf.read k
  blocks : ∀ klen ivlen, decode s.cmd = .ok (.decrypt klen ivlen) → 16 * s.nblk ≤ s.msgLen

/-- The key length of a legal command is the field of its word (R92, R94). -/
theorem klen_of_decode {w : Word} {i : Instr} (h : decode w = .ok i) : i.klen = klenField w := by
  unfold decode at h
  split at h
  · cases h
  · split at h
    · cases h; rfl
    · split at h
      · cases h; rfl
      · cases h

theorem keyOperand_of_sameInput {key : Vector Byte 32} {ibuf : Memory} {s : State} {i : Instr} {k : Key}
    (h : SameInput key ibuf s) (hd : decode s.cmd = .ok i) (hk : keyOperand s.key i.klen = some k) :
    keyOperand key i.klen = some k := by
  obtain ⟨hvalid, hbytes⟩ := keyOperand_eq_some.1 hk
  rw [klen_of_decode hd, h.key, ← klen_of_decode hd] at hbytes
  exact keyOperand_eq_some.2 ⟨hvalid, hbytes⟩

/-- `PB(i)` reads the message only (R131). -/
theorem plaintextBlock_twin {key : Vector Byte 32} {ibuf : Memory} {s : State}
    (h : SameInput key ibuf s) (reads : List HostRead) (trace : List CipherCall) (i : Nat) :
    plaintextBlock (s.twin key ibuf reads trace) i = plaintextBlock s i := by
  ext j hj : 1
  rw [getElem_plaintextBlock _ _ _ hj, getElem_plaintextBlock _ _ _ hj, twin_msgLen, twin_ibuf]
  split
  · exact h.message _ ‹_›
  · rfl

/-- The fetch of a whole ciphertext block reads the message only (R133). -/
theorem ciphertextBlock_twin {key : Vector Byte 32} {ibuf : Memory} {s : State}
    (h : SameInput key ibuf s) (reads : List HostRead) (trace : List CipherCall) {i : Nat}
    (hi : 16 * i + 16 ≤ s.msgLen) :
    ciphertextBlock (s.twin key ibuf reads trace) i = ciphertextBlock s i := by
  ext j hj : 1
  rw [getElem_ciphertextBlock _ _ _ hj, getElem_ciphertextBlock _ _ _ hj, twin_ibuf]
  exact h.message _ (by omega)

/-! ### Operations that act alike on an engine and its twins -/

/-- `f` does to every twin of `s` what it does to `s`, making the same capability applications. -/
def ActsAlike (key : Vector Byte 32) (ibuf : Memory) (f : State → State) (s : State) : Prop :=
  ∃ calls, (f s).trace = s.trace ++ calls ∧
    ∀ reads trace, f (s.twin key ibuf reads trace) = (f s).twin key ibuf reads (trace ++ calls)

/-- An operation that makes no capability application. -/
theorem actsAlike_of_silent {key : Vector Byte 32} {ibuf : Memory} {f : State → State} {s : State}
    (htrace : (f s).trace = s.trace)
    (htwin : ∀ reads trace, f (s.twin key ibuf reads trace) = (f s).twin key ibuf reads trace) :
    ActsAlike key ibuf f s :=
  ⟨[], by simpa using htrace, fun reads trace => by simpa using htwin reads trace⟩

section Silent
variable (key : Vector Byte 32) (ibuf : Memory) (s : State)

theorem id_actsAlike : ActsAlike key ibuf id s := actsAlike_of_silent rfl fun _ _ => rfl

theorem fail_actsAlike (code : ResultCode) (ce : CipherError) : ActsAlike key ibuf (fail code ce) s :=
  actsAlike_of_silent rfl fun _ _ => rfl

theorem commit_actsAlike : ActsAlike key ibuf commit s := actsAlike_of_silent rfl fun _ _ => rfl

/-- A test that has the same answer on the twins, between two operations that act alike. -/
theorem actsAlike_ite {p : State → Prop} [DecidablePred p] {f g : State → State}
    (test : ∀ reads trace, p (s.twin key ibuf reads trace) ↔ p s)
    (hf : ActsAlike key ibuf f s) (hg : ActsAlike key ibuf g s) :
    ActsAlike key ibuf (fun u => if p u then f u else g u) s := by
  unfold ActsAlike
  simp only [test]
  split
  · exact hf
  · exact hg

/-- The checks look at the lengths of the operands, which twins share. -/
theorem encryptDecode_actsAlike (P : Platform) : ActsAlike key ibuf (encryptDecode P) s :=
  actsAlike_ite key ibuf s (p := fun u => P.bufcap ≤ u.msgLen) (fun _ _ => Iff.rfl) (fail_actsAlike ..)
    (actsAlike_of_silent rfl fun _ _ => rfl)

theorem decryptDecode_actsAlike (P : Platform) : ActsAlike key ibuf (decryptDecode P) s :=
  actsAlike_ite key ibuf s (p := fun u => P.bufcap < u.msgLen) (fun _ _ => Iff.rfl) (fail_actsAlike ..)
    (actsAlike_of_silent rfl fun _ _ => rfl)

theorem encryptValidate_actsAlike (klen ivlen : Nat) : ActsAlike key ibuf (encryptValidate klen ivlen) s :=
  actsAlike_ite key ibuf s (p := fun _ => ValidParameters klen ivlen) (fun _ _ => Iff.rfl)
    (actsAlike_of_silent rfl fun _ _ => rfl) (fail_actsAlike ..)

theorem decryptValidate_actsAlike (klen ivlen : Nat) : ActsAlike key ibuf (decryptValidate klen ivlen) s :=
  actsAlike_ite key ibuf s (p := fun _ => ValidParameters klen ivlen) (fun _ _ => Iff.rfl)
    (actsAlike_of_silent rfl fun _ _ => rfl) (fail_actsAlike ..)

theorem decryptLencheck_actsAlike : ActsAlike key ibuf decryptLencheck s :=
  actsAlike_ite key ibuf s (p := fun u => u.msgLen % 16 ≠ 0 ∨ u.msgLen < 16) (fun _ _ => Iff.rfl) (fail_actsAlike ..)
    (actsAlike_of_silent rfl fun _ _ => rfl)

theorem unpadLast_actsAlike : ActsAlike key ibuf unpadLast s := by
  apply actsAlike_of_silent <;> simp only [unpadLast, twin_lastBlock]
  · split <;> rfl
  · intros; split <;> rfl

end Silent

/-- The store of a block and its record are the same whatever the operand stores hold. -/
theorem encryptStore_twin (key : Vector Byte 32) (ibuf : Memory) (reads : List HostRead) (trace : List CipherCall)
    (c : CipherCall) (e next : Block) (s : State) :
    encryptStore e next (emit c (s.twin key ibuf reads trace)) =
      (encryptStore e next (emit c s)).twin key ibuf reads (trace ++ [c]) := by
  rw [encryptStore_eq, encryptStore_eq, twin_blk, twin_nblk]
  split <;> rfl

theorem decryptStore_twin (key : Vector Byte 32) (ibuf : Memory) (reads : List HostRead) (trace : List CipherCall)
    (c : CipherCall) (p next : Block) (s : State) :
    decryptStore p next (emit c (s.twin key ibuf reads trace)) =
      (decryptStore p next (emit c s)).twin key ibuf reads (trace ++ [c]) := by
  rw [decryptStore_eq, decryptStore_eq, twin_blk, twin_nblk]
  split <;> rfl

theorem encryptStore_trace (c : CipherCall) (e next : Block) (s : State) :
    (encryptStore e next (emit c s)).trace = s.trace ++ [c] := by
  rw [encryptStore_eq]
  split <;> rfl

theorem decryptStore_trace (c : CipherCall) (p next : Block) (s : State) :
    (decryptStore p next (emit c s)).trace = s.trace ++ [c] := by
  rw [decryptStore_eq]
  split <;> rfl

theorem decryptStore_nblk (c : CipherCall) (p next : Block) (s : State) :
    (decryptStore p next (emit c s)).nblk = s.nblk := by
  rw [decryptStore_eq]
  split <;> rfl

/-- The CHAIN step of ENCRYPT makes the same request on both engines, and so gets the same answer. -/
theorem encryptRequest_actsAlike {key : Vector Byte 32} {ibuf : Memory} {s : State} (P : Platform) (k : Key)
    (h : SameInput key ibuf s) : ActsAlike key ibuf (encryptRequest P k) s := by
  unfold ActsAlike encryptRequest
  simp only [plaintextBlock_twin h, twin_blk, twin_chain]
  obtain ⟨c, ⟨e, next⟩ | ce⟩ := encStep P k s.chain (plaintextBlock s s.blk)
  · exact ⟨[c], encryptStore_trace c e next s, fun reads trace => encryptStore_twin key ibuf reads trace c e next s⟩
  · exact ⟨[c], rfl, fun _ _ => rfl⟩

/-- The CHAIN step of DECRYPT, on a whole block of the message. -/
theorem decryptRequest_actsAlike {key : Vector Byte 32} {ibuf : Memory} {s : State} (P : Platform) (k : Key)
    (h : SameInput key ibuf s) (hin : 16 * s.blk + 16 ≤ s.msgLen) : ActsAlike key ibuf (decryptRequest P k) s := by
  unfold ActsAlike decryptRequest
  simp only [twin_blk, twin_chain, ciphertextBlock_twin h _ _ hin]
  obtain ⟨c, ⟨p, next⟩ | ce⟩ := decStep P k s.chain (ciphertextBlock s s.blk)
  · exact ⟨[c], decryptStore_trace c p next s, fun reads trace => decryptStore_twin key ibuf reads trace c p next s⟩
  · exact ⟨[c], rfl, fun _ _ => rfl⟩

/-! ### Steps that go alike -/

/-- The step from `s` to `s'` is an operation that acts alike, and every twin of `s` takes it too. -/
def StepsAlike (key : Vector Byte 32) (ibuf : Memory) (step : State → Host.Outcome State Fault Refusal)
    (s s' : State) : Prop :=
  ∃ f, s' = f s ∧ ActsAlike key ibuf f s ∧
    ∀ reads trace, step (s.twin key ibuf reads trace) = .next (f (s.twin key ibuf reads trace))

section Steps
variable {P : Platform} {key : Vector Byte 32} {ibuf : Memory} {s s' : State} {klen ivlen : Nat}

theorem encryptStep_stepsAlike (h : SameInput key ibuf s) (hd : decode s.cmd = .ok (.encrypt klen ivlen))
    (hs : encryptStep P klen ivlen s = .next s') : StepsAlike key ibuf (encryptStep P klen ivlen) s s' := by
  obtain ⟨hp, he⟩ | ⟨hp, he⟩ | ⟨hp, he⟩ | ⟨hp, hblk, hin, k, hk, he⟩ | ⟨hp, he⟩ := encryptStep_cases hs
  · exact ⟨id, he, id_actsAlike .., by simp [encryptStep, hp]⟩
  · exact ⟨encryptDecode P, he, encryptDecode_actsAlike .., by simp [encryptStep, hp]⟩
  · exact ⟨encryptValidate klen ivlen, he, encryptValidate_actsAlike .., by simp [encryptStep, hp]⟩
  · have hk' := keyOperand_of_sameInput h hd hk
    exact ⟨encryptRequest P k, he, encryptRequest_actsAlike P k h, by
      simp [encryptStep, hp, encryptChain, Nat.not_le.2 hblk, Nat.not_lt.2 hin, show keyOperand key klen = _ from hk']⟩
  · exact ⟨commit, he, commit_actsAlike .., by simp [encryptStep, hp]⟩

theorem decryptStep_stepsAlike (h : SameInput key ibuf s) (hd : decode s.cmd = .ok (.decrypt klen ivlen))
    (hs : decryptStep P klen ivlen s = .next s') : StepsAlike key ibuf (decryptStep P klen ivlen) s s' := by
  obtain ⟨hp, he⟩ | ⟨hp, he⟩ | ⟨hp, he⟩ | ⟨hp, he⟩ | ⟨hp, hblk, hin, k, hk, he⟩ | ⟨hp, hn, hin, he⟩ | ⟨hp, he⟩ :=
    decryptStep_cases hs
  · exact ⟨id, he, id_actsAlike .., by simp [decryptStep, hp]⟩
  · exact ⟨decryptDecode P, he, decryptDecode_actsAlike .., by simp [decryptStep, hp]⟩
  · exact ⟨decryptValidate klen ivlen, he, decryptValidate_actsAlike .., by simp [decryptStep, hp]⟩
  · exact ⟨decryptLencheck, he, decryptLencheck_actsAlike .., by simp [decryptStep, hp]⟩
  · have hk' := keyOperand_of_sameInput h hd hk
    have hmsg : 16 * s.blk + 16 ≤ s.msgLen := by
      have := h.blocks klen ivlen hd
      omega
    exact ⟨decryptRequest P k, he, decryptRequest_actsAlike P k h hmsg, by
      simp [decryptStep, hp, decryptChain, Nat.not_le.2 hblk, Nat.not_lt.2 hin, show keyOperand key klen = _ from hk']⟩
  · exact ⟨unpadLast, he, unpadLast_actsAlike .., fun reads trace => by
      simp only [decryptStep, twin_phase, hp]
      exact decryptUnpad_of_guards hn hin⟩
  · exact ⟨commit, he, commit_actsAlike .., by simp [decryptStep, hp]⟩

theorem illegalStep_stepsAlike (hs : illegalStep s = .next s') : StepsAlike key ibuf illegalStep s s' := by
  obtain ⟨hp, he⟩ | ⟨hp, he⟩ | ⟨hp, he⟩ := illegalStep_cases hs
  · exact ⟨id, he, id_actsAlike .., by simp [illegalStep, hp]⟩
  · exact ⟨fail .illegalCommand 0, he, fail_actsAlike .., by simp [illegalStep, hp]⟩
  · exact ⟨commit, he, commit_actsAlike .., by simp [illegalStep, hp]⟩

/-- A busy engine's step under an illegal word. -/
theorem engineStep_of_illegal {run : Instr → State → Host.Outcome State Fault Refusal} {e : Illegal}
    (hp : s.phase ≠ .idle) (hd : decode s.cmd = .error e) : engineStep run s = illegalStep s := by
  unfold engineStep
  split
  · exact absurd ‹_› hp
  · rw [hd]

theorem execOn_stepsAlike {i : Instr} (h : SameInput key ibuf s) (hd : decode s.cmd = .ok i)
    (hs : execOn P i s = .next s') : StepsAlike key ibuf (execOn P i) s s' := by
  cases i with
  | encrypt klen ivlen => exact encryptStep_stepsAlike h hd hs
  | decrypt klen ivlen => exact decryptStep_stepsAlike h hd hs

theorem engineStep_stepsAlike (h : SameInput key ibuf s) (hs : engineStep (execOn P) s = .next s') :
    StepsAlike key ibuf (engineStep (execOn P)) s s' := by
  obtain ⟨hp, he⟩ | ⟨hp, i, hd, he⟩ | ⟨hp, e, hd, he⟩ := engineStep_cases hs
  · exact ⟨id, eq_of_next_eq he.symm, id_actsAlike .., fun _ _ => engineStep_of_idle hp⟩
  · obtain ⟨f, hf, hact, htwin⟩ := execOn_stepsAlike h hd he.symm
    exact ⟨f, hf, hact, fun reads trace => (engineStep_of_decode (s := s.twin key ibuf reads trace) hp hd).trans (htwin reads trace)⟩
  · obtain ⟨f, hf, hact, htwin⟩ := illegalStep_stepsAlike (key := key) (ibuf := ibuf) he.symm
    exact ⟨f, hf, hact, fun reads trace => (engineStep_of_illegal (s := s.twin key ibuf reads trace) hp hd).trans (htwin reads trace)⟩

/-! ### The same operands after a step -/

/-- A DECRYPT sets `NBLK` to the number of whole blocks of its message, or clears it (R193, R197, R226). -/
theorem decryptStep_blocks (h : 16 * s.nblk ≤ s.msgLen) (hs : decryptStep P klen ivlen s = .next s') :
    16 * s'.nblk ≤ s.msgLen := by
  obtain ⟨-, he⟩ | ⟨-, he⟩ | ⟨-, he⟩ | ⟨-, he⟩ | ⟨-, -, -, k, -, he⟩ | ⟨-, -, -, he⟩ | ⟨-, he⟩ :=
    decryptStep_cases hs <;> rw [he]
  · exact h
  · unfold decryptDecode
    split
    · simp
    · exact h
  · unfold decryptValidate
    split
    · exact h
    · simp
  · unfold decryptLencheck
    split
    · simp
    · exact Nat.mul_div_le s.msgLen 16
  · obtain ⟨ce, -, hr⟩ | ⟨d, -, hr⟩ := decryptRequest_cases P k s <;> rw [hr]
    · simp
    · rw [decryptStore_nblk]
      exact h
  · obtain ⟨-, hu⟩ | ⟨n, -, hu⟩ := unpadLast_cases s <;> rw [hu]
    · simp
    · exact h
  · simp

/-- A step of the engine leaves the operands and the word, so `key` and `ibuf` still hold the same input. -/
theorem sameInput_of_engineStep (h : SameInput key ibuf s) (hs : engineStep (execOn P) s = .next s') :
    SameInput key ibuf s' := by
  obtain ⟨hkey, -, hibuf, hilen, hcmd, -, -⟩ := (engineStep_move hs).frame
  have hlen : s'.msgLen = s.msgLen := by simp only [State.msgLen, hilen]
  refine ⟨by rw [hcmd, hkey]; exact h.key, by rw [hlen, hibuf]; exact h.message, fun klen ivlen hd => ?_⟩
  rw [hcmd] at hd
  rw [hlen]
  have hblocks := h.blocks klen ivlen hd
  by_cases hp : s.phase = .idle
  · rw [engineStep_of_idle hp] at hs
    rw [eq_of_next_eq hs]
    exact hblocks
  · rw [engineStep_of_decode hp hd] at hs
    exact decryptStep_blocks hblocks hs

/-- Every number of steps goes alike, with nothing on its way from outside. -/
theorem runsOn_twin {n : Nat} (hpending : s.pending = []) (h : SameInput key ibuf s) (hr : RunsOn P n s s') :
    ∃ calls, s'.trace = s.trace ++ calls ∧
      ∀ reads trace, RunsOn P n (s.twin key ibuf reads trace) (s'.twin key ibuf reads (trace ++ calls)) := by
  induction n generalizing s with
  | zero =>
    rw [runsOn_zero] at hr
    subst hr
    exact ⟨[], by simp, fun reads trace => by simp⟩
  | succ n ih =>
    obtain ⟨u, hu, hrest⟩ := runsOn_succ.1 hr
    rw [stepOn_of_pending_nil hpending] at hu
    have hpending' : u.pending = [] := (engineStep_move hu).frame.pending.trans hpending
    obtain ⟨calls', htrace', htwin'⟩ := ih hpending' (sameInput_of_engineStep h hu) hrest
    obtain ⟨f, rfl, ⟨calls, htrace, htwin⟩, hstep⟩ := engineStep_stepsAlike h hu
    refine ⟨calls ++ calls', by rw [htrace', htrace, List.append_assoc], fun reads trace => ?_⟩
    refine runsOn_succ.2 ⟨(f s).twin key ibuf reads (trace ++ calls), ?_, ?_⟩
    · rw [stepOn_of_pending_nil (by simpa using hpending), hstep, htwin]
    · rw [← List.append_assoc]
      exact htwin' reads (trace ++ calls)

end Steps

/-! ### From the command word on -/

/-- Two engines with the same operands are twins from START on, whatever a command before it has left. -/
theorem start_eq_twin {s t : State} {w : Word} (hs : s.pending = []) (ht : t.pending = []) (hilen : s.ilen = t.ilen)
    (hiv : s.iv = t.iv) : start w t = (start w s).twin t.key t.ibuf t.reads t.trace := by
  simp only [start, State.twin, hs, ht, hilen, hiv]

/-- The bytes of equal messages are equal (R93). -/
theorem read_eq_of_message_eq {s t : State} (h : s.message = t.message) {k : Nat} (hk : k < s.msgLen) :
    t.ibuf.read k = s.ibuf.read k := by
  have hlen : s.msgLen = t.msgLen := by simpa using congrArg List.length h
  have hget := congrArg (·[k]?) h
  simp only [getElem?_message, hk, hlen ▸ hk, if_true] at hget
  exact (Option.some.inj hget).symm

theorem sameInput_start {s t : State} {w : Word} (h : SameOperands w s t) : SameInput t.key t.ibuf (start w s) := by
  obtain ⟨-, -, hkey, hmsg⟩ := h
  exact ⟨hkey, fun k hk => read_eq_of_message_eq hmsg hk, by simp⟩

/-- Settles O43: the two engines are twins from START on, and twins show the same result. -/
theorem commandsAreStateless : Obligations.CommandsAreStateless := by
  unfold Obligations.CommandsAreStateless
  intro s t w hs ht hops n s' hr
  have ⟨hilen, hiv, _⟩ := hops
  rw [runs_iff_runsOn] at hr
  obtain ⟨calls, htrace, htwin⟩ := runsOn_twin (s := start w s) hs (sameInput_start hops) hr
  refine ⟨s'.twin t.key t.ibuf t.reads (t.trace ++ calls), calls, ?_, ⟨rfl, rfl, rfl, rfl⟩, rfl, htrace, rfl⟩
  rw [runs_iff_runsOn, start_eq_twin hs ht hilen hiv]
  exact htwin t.reads t.trace

end Sys2Proof.Machine

/-! PROOFS. The host's accesses (spec/20_memory.md R63 to R78): the value of each read, what each write changes and
leaves, the write lock, and what a busy engine shows; and the step of a busy engine under a legal word. -/

namespace Sys2Proof.Machine

/-! ### The step of the machine, by the next event -/

theorem step_of_pending_nil {s : State} (h : s.pending = []) : step s = engineStep exec s := by
  simp only [step, advance, h]

theorem step_of_engineTurn {s : State} {rest : List HostEvent} (h : s.pending = .engineTurn :: rest) :
    step s = engineStep exec { s with pending := rest } := by
  simp only [step, advance, h]

theorem step_of_access {s : State} {a : Access} {rest : List HostEvent} (h : s.pending = .access a :: rest) :
    step s = .next (performAccess Config.platform.bufcap a { s with pending := rest }) := by
  simp only [step, advance, h]

/-- Settles O6: either way the step is the engine's, which runs the command the latched word decodes to. -/
theorem stepRunsTheLatchedCommand : Obligations.StepRunsTheLatchedCommand := by
  unfold Obligations.StepRunsTheLatchedCommand
  intro s i hp hd
  constructor
  · intro hnil
    rw [step_of_pending_nil hnil, engineStep_of_decode hp hd]
  · intro rest hturn
    rw [step_of_engineTurn hturn]
    exact engineStep_of_decode (s := { s with pending := rest }) hp hd

/-! ### Writes of a register -/

/-- Settles O19: the cases of a register write (R63). -/
theorem hostWriteOfRegister : Obligations.HostWriteOfRegister := by
  unfold Obligations.HostWriteOfRegister
  intro s n v rest hp
  rw [step_of_access hp, performAccess]
  obtain ⟨hb, he⟩ | ⟨hb, rfl, he⟩ | ⟨hb, rfl, he⟩ | ⟨hb, hn, he⟩ := hostWriteReg_cases n v { s with pending := rest } <;>
    rw [he]
  · simp [show s.status.busy = true from hb]
  · simp [show s.status.busy = false from hb]
  · simp [show s.status.busy = false from hb]
  · simp [show s.status.busy = false from hb, show n ≠ 0 by omega, show n ≠ 1 by omega]

/-! ### Writes of a byte -/

/-- Which byte writes are ignored (R65, R68). -/
theorem hostWriteByte_of_ignored {cap : Nat} {store : Store} {i : Nat} {v : Byte} {s : State}
    (h : s.status.busy = true ∨ store = .obuf ∨ storeSize cap store ≤ i) : hostWriteByte cap store i v s = s := by
  unfold hostWriteByte
  obtain hb | rfl | hi := h
  · rw [if_pos hb]
  · simp
  · simp [hi]

/-- A byte write touches `KEY`, `IV` and `IBUF` at most (R65). -/
theorem hostWriteByte_frame (cap : Nat) (store : Store) (i : Nat) (v : Byte) (s : State) :
    hostWriteByte cap store i v s =
      { s with
        key := (hostWriteByte cap store i v s).key
        iv := (hostWriteByte cap store i v s).iv
        ibuf := (hostWriteByte cap store i v s).ibuf } := by
  obtain he | ⟨-, ⟨-, -, he⟩ | ⟨-, -, he⟩ | ⟨-, -, he⟩⟩ := hostWriteByte_cases cap store i v s <;> rw [he]

/-- A byte of a fixed-size store after an in-range write of one byte. -/
theorem getD_setIfInBounds {n : Nat} (bytes : Vector Byte n) {i : Nat} (hi : i < n) (v : Byte) (j : Nat)
    (d : Byte) : ((bytes.setIfInBounds i v)[j]?).getD d = if j = i then v else (bytes[j]?).getD d := by
  rw [Vector.getElem?_setIfInBounds]
  by_cases hj : j = i
  · simp [hj, hi]
  · simp [hj, Ne.symm hj]

/-- Read after write: an accepted byte write stores its byte, and every other byte of every store stays (R65). -/
theorem storeByte_hostWriteByte {cap : Nat} {store : Store} {i : Nat} {v : Byte} {s : State} (hwf : s.ibuf.wf)
    (h : ¬(s.status.busy = true ∨ store = .obuf ∨ storeSize cap store ≤ i)) (store' : Store) (i' : Nat) :
    (hostWriteByte cap store i v s).storeByte store' i' =
      if store' = store ∧ i' = i then v else s.storeByte store' i' := by
  push Not at h
  obtain ⟨hb, hobuf, hi⟩ := h
  unfold hostWriteByte
  rw [if_neg hb, if_neg (Nat.not_le.2 hi)]
  cases store with
  | obuf => exact absurd rfl hobuf
  | key => cases store' <;> simp [State.storeByte, getD_setIfInBounds s.key hi]
  | iv => cases store' <;> simp [State.storeByte, getD_setIfInBounds s.iv hi]
  | ibuf => cases store' <;> simp [State.storeByte, Memory.read_write hwf]

/-- Settles O22: an ignored write leaves the state, an accepted one is read back. -/
theorem hostWriteOfByte : Obligations.HostWriteOfByte := by
  unfold Obligations.HostWriteOfByte
  intro s store i v rest hwf hp
  refine ⟨_, step_of_access hp, ?_⟩
  rw [performAccess]
  split
  · rename_i hignored
    exact hostWriteByte_of_ignored hignored
  · rename_i haccepted
    have hread := storeByte_hostWriteByte (s := { s with pending := rest }) (v := v) hwf haccepted
    refine ⟨hostWriteByte_frame _ store i v { s with pending := rest }, ?_, fun store' i' hother => ?_⟩
    · rw [hread, if_pos ⟨rfl, rfl⟩]
    · rw [hread, if_neg (fun hsame => hother.elim (· hsame.1) (· hsame.2))]
      rfl

/-! ### The write lock -/

/-- While busy a host write, of a register or a byte, changes nothing (R67). -/
theorem performAccess_write_of_busy {cap : Nat} {a : Access} {s : State} (hb : s.status.busy = true)
    (hw : (∃ n v, a = .writeReg n v) ∨ ∃ store i v, a = .writeByte store i v) : performAccess cap a s = s := by
  obtain ⟨n, v, rfl⟩ | ⟨store, i, v, rfl⟩ := hw
  · exact if_pos hb
  · exact hostWriteByte_of_ignored (.inl hb)

theorem step_write_of_busy {s : State} {a : Access} {rest : List HostEvent} (hb : s.status.busy = true)
    (hw : (∃ n v, a = .writeReg n v) ∨ ∃ store i v, a = .writeByte store i v) (hp : s.pending = .access a :: rest) :
    step s = .next { s with pending := rest } := by
  rw [step_of_access hp, performAccess_write_of_busy (s := { s with pending := rest }) hb hw]

/-- Settles O24, by induction on the writes: each one is consumed and leaves the engine busy as it was. -/
theorem writesWhileBusyAreLost : Obligations.WritesWhileBusyAreLost := by
  unfold Obligations.WritesWhileBusyAreLost
  intro s writes rest hb hw hp
  induction writes generalizing s with
  | nil =>
    rw [List.length_nil, runs_zero, ← show s.pending = rest from hp]
  | cons a writes ih =>
    obtain ⟨ha, hw⟩ := List.forall_mem_cons.1 hw
    have hstep : step s = .next { s with pending := writes.map .access ++ rest } := step_write_of_busy hb ha hp
    exact runs_succ.2 ⟨_, hstep, ih { s with pending := writes.map .access ++ rest } hb hw rfl⟩

/-! ### Reads of a register -/

/-- The value of a register read, by its number (R64). -/
theorem hostReadReg_eq (n : Nat) (s : State) :
    hostReadReg n s =
      if n = 0 then s.cmd else if n = 1 then s.ilen else if n = 2 then s.status.word
      else if n = 3 then s.olen else if n = 4 then s.cerr else 0 := by
  match n with
  | 0 | 1 | 2 | 3 | 4 => rfl
  | n + 5 => simp [hostReadReg]

/-- A one-bit field in a word is its bit, zero-extended. -/
theorem ofNat_bitValue (b : Bool) : BitVec.ofNat 32 (bitValue b) = (BitVec.ofBool b).setWidth 32 := by
  cases b <;> rfl

/-- The fields of `STATUS` at bits 0, 1 and 4 (R64). -/
theorem status_word_eq (t : Status) :
    t.word = (BitVec.ofBool t.busy).setWidth 32 + 2 * (BitVec.ofBool t.done).setWidth 32 +
      16 * BitVec.ofNat 32 t.code.value := by
  rw [Status.word, BitVec.ofNat_add, BitVec.ofNat_add, BitVec.ofNat_mul, BitVec.ofNat_mul, ofNat_bitValue,
    ofNat_bitValue]
  rfl

/-! ### What a busy engine shows -/

theorem status_running_of_busy {s : State} (h : StatusHolds s) (hb : s.status.busy = true) : s.status = .running := by
  obtain hs | hs | ⟨code, hs⟩ := status_cases h
  · simp [hs] at hb
  · exact hs
  · simp [hs] at hb

/-- In every phase but IDLE the invariant says that nothing is published (R64). -/
theorem nothingPublished_of_busy {cap : Nat} {s : State} (h : s.ConsistentOn cap) (hb : s.status.busy = true) :
    NothingPublished s := by
  obtain ⟨⟨hbusy, -, -⟩, -, hph⟩ := h
  unfold PhaseHolds at hph
  split at hph
  case h_1 hp => exact absurd hp (hbusy.1 hb)
  case h_2 => exact hph.1
  case h_3 => exact hph.1.1
  case h_4 => exact hph.1.1
  case h_5 => obtain ⟨i, hchain, -⟩ := hph; exact hchain.1
  case h_6 => obtain ⟨klen, ivlen, hchain, -⟩ := hph; exact hchain.1
  case h_7 => obtain ⟨i, hchain, -⟩ := hph; exact hchain.1

/-- A busy engine shows `CMD`, `ILEN` and that it is busy, and nothing else (R64). -/
theorem hostReadReg_of_busy {cap : Nat} {s : State} (h : s.ConsistentOn cap) (hb : s.status.busy = true) (n : Nat) :
    hostReadReg n s = if n = 0 then s.cmd else if n = 1 then s.ilen else if n = 2 then 1 else 0 := by
  obtain ⟨holen, hcerr⟩ := nothingPublished_of_busy h hb
  have hword : s.status.word = 1 := by rw [status_running_of_busy h.1 hb]; rfl
  rw [hostReadReg_eq, holen, hcerr, hword, ite_self, ite_self]

/-- The read gate: a busy engine shows the bytes of the operands only (R66). -/
theorem hostReadByte_of_busy {cap : Nat} {s : State} (hb : s.status.busy = true) (store : Store) (i : Nat) :
    hostReadByte cap store i s = if storeSize cap store ≤ i ∨ store = .obuf then 0 else s.storeByte store i := by
  unfold hostReadByte
  by_cases hi : storeSize cap store ≤ i
  · simp [hi]
  · simp [hi, hb]

theorem storeByte_of_same_operands {s t : State} (hkey : s.key = t.key) (hiv : s.iv = t.iv) (hibuf : s.ibuf = t.ibuf)
    {store : Store} (hstore : store ≠ .obuf) (i : Nat) : s.storeByte store i = t.storeByte store i := by
  cases store with
  | obuf => exact absurd rfl hstore
  | key => simp only [State.storeByte, hkey]
  | iv => simp only [State.storeByte, hiv]
  | ibuf => simp only [State.storeByte, hibuf]

/-- Settles O21: the value by its number, and what a busy engine shows. -/
theorem hostReadOfRegister : Obligations.HostReadOfRegister := by
  unfold Obligations.HostReadOfRegister
  intro s n rest hp
  refine ⟨hostReadReg n s, step_of_access hp, ?_, fun h hb hn => ?_, fun h hb hn => ?_⟩
  · rw [hostReadReg_eq, status_word_eq]
  · rw [hostReadReg_of_busy h hb, hn]
    rfl
  · rw [hostReadReg_of_busy h hb]
    obtain rfl | rfl := hn <;> rfl

/-- Settles O25: what a busy engine shows is a function of `CMD`, `ILEN` and the operands. -/
theorem hostCannotTellEngineStepsApart : Obligations.HostCannotTellEngineStepsApart := by
  unfold Obligations.HostCannotTellEngineStepsApart
  intro s t hs ht hbs hbt hcmd hilen hkey hiv hibuf
  constructor
  · intro n
    rw [hostReadReg_of_busy hs hbs, hostReadReg_of_busy ht hbt, hcmd, hilen]
  · intro store i
    rw [hostReadByte_of_busy hbs, hostReadByte_of_busy hbt]
    split
    · rfl
    · rename_i hshown
      exact storeByte_of_same_operands hkey hiv hibuf (fun hobuf => hshown (.inr hobuf)) i

/-! ### Reads of a byte -/

/-- A consistent engine shows a byte of `OBUF` that is not zero only after a command completed `Ok`, and below `OLEN`
(R24, R66). -/
theorem completed_of_obuf_byte {s : State} {i : Nat} (h : s.Consistent)
    (hv : hostReadByte Config.platform.bufcap .obuf i s ≠ 0x00) :
    s.status.done = true ∧ s.status.code = .ok ∧ i < s.olen.toNat := by
  have hshown : ¬(s.status.busy = true ∨ s.status.done = false ∨ s.status.code ≠ .ok) :=
    fun hn => hv (noPartialOutputIsReadable s h hn i)
  simp only [not_or, Bool.not_eq_true, Bool.not_eq_false, not_not] at hshown
  obtain ⟨hb, hdone, hcode⟩ := hshown
  refine ⟨hdone, hcode, ?_⟩
  by_contra hi
  have hzero : s.obuf.read i = 0 := obuf_read_of_idle h (idle_of_not_busy h hb) (Nat.not_lt.1 hi)
  exact hv (by simp [hostReadByte, State.storeByte, hzero])

/-- Settles O23: the value by its definition, and that a result byte needs a completed command. -/
theorem hostReadOfByte : Obligations.HostReadOfByte := by
  unfold Obligations.HostReadOfByte
  intro s store i rest hp
  refine ⟨hostReadByte Config.platform.bufcap store i s, step_of_access hp, rfl, ?_⟩
  rintro h rfl hv
  exact completed_of_obuf_byte h hv

end Sys2Proof.Machine

/-! PROOFS. The words of commands: the fields of a word as numbers, the decoder by them, and that decoder and encoder are
inverse to each other (spec/30_encoding.md R90 to R101). -/

namespace Sys2Proof

/-! ### The fields of a word, as numbers -/

theorem toNat_opField (w : Word) : (opField w).toNat = w.toNat % 256 := by simp [opField]

theorem klenField_eq (w : Word) : klenField w = w.toNat / 256 % 256 := by
  simp [klenField, Nat.shiftRight_eq_div_pow]

theorem ivlenField_eq (w : Word) : ivlenField w = w.toNat / 65536 % 256 := by
  simp [ivlenField, Nat.shiftRight_eq_div_pow]

theorem rsvdField_eq_zero_iff {w : Word} : rsvdField w = 0x00 ↔ w.toNat / 16777216 = 0 := by
  have hw := w.isLt
  have hr : (rsvdField w).toNat = w.toNat / 16777216 % 256 := by simp [rsvdField, Nat.shiftRight_eq_div_pow]
  rw [← BitVec.toNat_inj, hr, show (0x00 : BitVec 8).toNat = 0 from rfl]
  omega

/-! ### The decoder, by the fields -/

theorem opcode_eq_one_or_two (i : Instr) : opcode i = 1 ∨ opcode i = 2 := by
  cases i with
  | encrypt => exact .inl rfl
  | decrypt => exact .inr rfl

theorem wellFormed_iff {i : Instr} : i.wellFormed = true ↔ i.klen ≤ 255 ∧ i.ivlen ≤ 255 := by
  cases i <;> simp [Instr.wellFormed, fieldFits, Instr.klen, Instr.ivlen]

/-- A word is legal exactly when its `RSVD` is zero and its `OP` is that of a row; the lengths are then the fields'
(R94). -/
theorem decode_eq_ok_iff {w : Word} {i : Instr} :
    decode w = .ok i ↔
      rsvdField w = 0x00 ∧ opField w = BitVec.ofNat 8 (opcode i) ∧ klenField w = i.klen ∧ ivlenField w = i.ivlen := by
  constructor
  · intro h
    unfold decode at h
    split at h
    · cases h
    · have hr : rsvdField w = 0x00 := not_not.1 ‹_›
      split at h
      · cases h; exact ⟨hr, ‹_›, rfl, rfl⟩
      · split at h
        · cases h; exact ⟨hr, ‹_›, rfl, rfl⟩
        · cases h
  · rintro ⟨hr, ho, hk, hv⟩
    cases i with
    | encrypt => simp_all [decode, opcode, Instr.klen, Instr.ivlen]
    | decrypt => simp_all [decode, opcode, Instr.klen, Instr.ivlen]

/-- The same on the number the word is: the three fields of a command, and nothing above them. -/
theorem decode_eq_ok_iff_toNat {w : Word} {i : Instr} :
    decode w = .ok i ↔
      w.toNat / 16777216 = 0 ∧ w.toNat % 256 = opcode i ∧ w.toNat / 256 % 256 = i.klen ∧
        w.toNat / 65536 % 256 = i.ivlen := by
  have hop : (BitVec.ofNat 8 (opcode i)).toNat = opcode i := by cases i <;> rfl
  rw [decode_eq_ok_iff, rsvdField_eq_zero_iff, ← BitVec.toNat_inj, hop, toNat_opField, klenField_eq, ivlenField_eq]

/-- A word that decodes to no command is illegal. -/
theorem exists_error_of_decode_ne_ok {w : Word} (h : ∀ i, decode w ≠ .ok i) : ∃ e, decode w = .error e := by
  cases hd : decode w with
  | error e => exact ⟨e, rfl⟩
  | ok i => exact absurd hd (h i)

/-! ### Decoder and encoder -/

theorem toNat_encode {i : Instr} (h : i.wellFormed = true) :
    (encode i).toNat = opcode i + 256 * i.klen + 65536 * i.ivlen := by
  obtain ⟨hk, hv⟩ := wellFormed_iff.1 h
  have ho := opcode_eq_one_or_two i
  rw [encode, BitVec.toNat_ofNat]
  omega

theorem decode_encode {i : Instr} (h : i.wellFormed = true) : decode (encode i) = .ok i := by
  obtain ⟨hk, hv⟩ := wellFormed_iff.1 h
  have ho := opcode_eq_one_or_two i
  rw [decode_eq_ok_iff_toNat, toNat_encode h]
  omega

theorem wellFormed_of_decode {w : Word} {i : Instr} (h : decode w = .ok i) : i.wellFormed = true := by
  obtain ⟨-, -, hk, hv⟩ := decode_eq_ok_iff_toNat.1 h
  rw [wellFormed_iff]
  omega

theorem encode_of_decode {w : Word} {i : Instr} (h : decode w = .ok i) : encode i = w := by
  obtain ⟨hr, ho, hk, hv⟩ := decode_eq_ok_iff_toNat.1 h
  apply BitVec.eq_of_toNat_eq
  rw [toNat_encode (wellFormed_of_decode h)]
  omega

/-- Settles O1: the bytes of the sum `OP + 256*klen + 65536*ivlen` are its three terms. -/
theorem decodeOfEncodeIsIdentity : Obligations.DecodeOfEncodeIsIdentity := by
  unfold Obligations.DecodeOfEncodeIsIdentity
  exact fun _ h => decode_encode h

/-- Settles O2: a legal word is the sum of its bytes, of which the top one is zero. -/
theorem encodeOfDecodeIsIdentity : Obligations.EncodeOfDecodeIsIdentity := by
  unfold Obligations.EncodeOfDecodeIsIdentity
  exact fun _ _ h => ⟨wellFormed_of_decode h, encode_of_decode h⟩

/-! ### The number of legal words -/

/-- The well-formed commands, by row and by the two length fields. -/
def formatC : Bool × Fin 256 × Fin 256 → Instr
  | (false, klen, ivlen) => .encrypt klen ivlen
  | (true, klen, ivlen) => .decrypt klen ivlen

theorem formatC_wellFormed (c : Bool × Fin 256 × Fin 256) : (formatC c).wellFormed = true := by
  obtain ⟨_ | _, klen, ivlen⟩ := c <;> exact wellFormed_iff.2 ⟨Nat.le_of_lt_succ klen.isLt, Nat.le_of_lt_succ ivlen.isLt⟩

theorem formatC_injective : Function.Injective formatC := by
  rintro ⟨_ | _, klen, ivlen⟩ ⟨_ | _, klen', ivlen'⟩ h <;> simp_all [formatC, Fin.ext_iff]

theorem exists_formatC_eq {i : Instr} (h : i.wellFormed = true) : ∃ c, formatC c = i := by
  obtain ⟨hk, hv⟩ := wellFormed_iff.1 h
  cases i with
  | encrypt klen ivlen => exact ⟨(false, ⟨klen, Nat.lt_succ_of_le hk⟩, ⟨ivlen, Nat.lt_succ_of_le hv⟩), rfl⟩
  | decrypt klen ivlen => exact ⟨(true, ⟨klen, Nat.lt_succ_of_le hk⟩, ⟨ivlen, Nat.lt_succ_of_le hv⟩), rfl⟩

/-- The legal word of a row and two length fields. -/
def legalWord (c : Bool × Fin 256 × Fin 256) : { w : Word // ∃ i, decode w = .ok i } :=
  ⟨encode (formatC c), formatC c, decode_encode (formatC_wellFormed c)⟩

theorem legalWord_bijective : Function.Bijective legalWord := by
  constructor
  · intro c c' h
    have he : encode (formatC c) = encode (formatC c') := congrArg Subtype.val h
    have hd := decode_encode (formatC_wellFormed c)
    rw [he, decode_encode (formatC_wellFormed c')] at hd
    exact (formatC_injective (Except.ok.inj hd)).symm
  · rintro ⟨w, i, hd⟩
    obtain ⟨c, rfl⟩ := exists_formatC_eq (wellFormed_of_decode hd)
    exact ⟨c, Subtype.ext (encode_of_decode hd)⟩

theorem card_legal_words : Nat.card { w : Word // ∃ i, decode w = .ok i } = 131072 := by
  rw [← Nat.card_eq_of_bijective legalWord legalWord_bijective]
  simp

/-- Settles O3: each branch by the fields of the word, and the legal words counted by row and lengths. -/
theorem decodeIsTheTotalFunctionOfTheWord : Obligations.DecodeIsTheTotalFunctionOfTheWord := by
  unfold Obligations.DecodeIsTheTotalFunctionOfTheWord
  refine ⟨fun w => ?_, card_legal_words⟩
  split
  · rename_i hr
    exact exists_error_of_decode_ne_ok fun i hd => hr (decode_eq_ok_iff_toNat.1 hd).1
  · rename_i hr
    split
    · rename_i ho
      exact decode_eq_ok_iff_toNat.2 ⟨not_not.1 hr, ho, rfl, rfl⟩
    · split
      · rename_i ho
        exact decode_eq_ok_iff_toNat.2 ⟨not_not.1 hr, ho, rfl, rfl⟩
      · refine exists_error_of_decode_ne_ok fun i hd => ?_
        obtain ⟨-, ho, -⟩ := decode_eq_ok_iff_toNat.1 hd
        have := opcode_eq_one_or_two i
        omega

/-! ### The rows of the opcode table -/

/-- The mask of the opcode table keeps `OP` and `RSVD` whole (R91). -/
theorem opField_and_tableMask (w : Word) : opField (w &&& tableMask) = opField w := by
  rw [opField, BitVec.extractLsb'_and]
  exact BitVec.and_allOnes

theorem rsvdField_and_tableMask (w : Word) : rsvdField (w &&& tableMask) = rsvdField w := by
  rw [rsvdField, BitVec.extractLsb'_and]
  exact BitVec.and_allOnes

theorem encode_and_tableMask {i : Instr} (h : i.wellFormed = true) : encode i &&& tableMask = tableMatch i := by
  cases i with
  | encrypt klen ivlen => exact Laws.EncodedWordSelectsItsRow.encrypt klen ivlen h
  | decrypt klen ivlen => exact Laws.EncodedWordSelectsItsRow.decrypt klen ivlen h

theorem rsvdField_tableMatch (i : Instr) : rsvdField (tableMatch i) = 0x00 := by
  cases i with
  | encrypt => exact (by decide : rsvdField 0x00000001 = 0x00)
  | decrypt => exact (by decide : rsvdField 0x00000002 = 0x00)

theorem opField_tableMatch (i : Instr) : opField (tableMatch i) = BitVec.ofNat 8 (opcode i) := by
  cases i with
  | encrypt => exact (by decide : opField 0x00000001 = 0x01)
  | decrypt => exact (by decide : opField 0x00000002 = 0x02)

/-- A word that masks to a row's match has that row's `OP` and no `RSVD`, so it is legal, with its own length fields
(R91, R101). -/
theorem decode_of_and_tableMask {w : Word} {i : Instr} (h : w &&& tableMask = tableMatch i)
    (hk : klenField w = i.klen) (hv : ivlenField w = i.ivlen) : decode w = .ok i := by
  rw [decode_eq_ok_iff, ← rsvdField_and_tableMask, ← opField_and_tableMask, h]
  exact ⟨rsvdField_tableMatch i, opField_tableMatch i, hk, hv⟩

theorem and_tableMask_of_decode {w : Word} {i : Instr} (h : decode w = .ok i) : w &&& tableMask = tableMatch i := by
  rw [← encode_of_decode h, encode_and_tableMask (wellFormed_of_decode h)]

/-- Settles O4: the mask covers the fields that select the row, and no bit of a length. -/
theorem decodeSelectsTheTableRowByMaskAndMatch : Obligations.DecodeSelectsTheTableRowByMaskAndMatch := by
  unfold Obligations.DecodeSelectsTheTableRowByMaskAndMatch
  intro w
  constructor
  · exact ⟨fun h => ⟨_, _, decode_of_and_tableMask h rfl rfl⟩, fun ⟨_, _, hd⟩ => and_tableMask_of_decode hd⟩
  · exact ⟨fun h => ⟨_, _, decode_of_and_tableMask h rfl rfl⟩, fun ⟨_, _, hd⟩ => and_tableMask_of_decode hd⟩

/-! ### The example words -/

/-- Settles O5: the legal examples are encoded commands, and the decoder names the cause of each illegal one. -/
theorem exampleCommandWordsDecode : Obligations.ExampleCommandWordsDecode := by
  unfold Obligations.ExampleCommandWordsDecode
  exact ⟨decode_encode (i := .encrypt 16 16) rfl, decode_encode (i := .encrypt 24 16) rfl,
    decode_encode (i := .encrypt 32 16) rfl, decode_encode (i := .decrypt 16 16) rfl,
    decode_encode (i := .decrypt 24 16) rfl, decode_encode (i := .decrypt 32 16) rfl, rfl, rfl, rfl⟩

end Sys2Proof

/-! PROOFS. The loops of a host program (spec/30_encoding.md R100): every engine step of a command brings its end nearer
(spec/43_mode_facade.md R198), so `WAIT` ends; and `MOVEOUT` copies the result byte by byte. -/

namespace Sys2Proof.Machine

/-! ### The machine's step, by the next event -/

theorem step_of_wait {s : State} {rest : List HostEvent} (h : s.pending = .wait :: rest) :
    step s = .next (waitRound rest s) := by
  simp only [step, advance, h]

theorem step_of_moveout {s : State} {rest : List HostEvent} (h : s.pending = .moveout :: rest) :
    step s = .next (beginMoveout Config.platform.bufcap rest s) := by
  simp only [step, advance, h]

/-- Runs of the machine chain. -/
theorem runs_add {m n : Nat} {s t u : State} (h : Runs m s t) (k : Runs n t u) : Runs (m + n) s u := by
  rw [runs_iff_runsOn] at *
  exact runsOn_add h k

theorem runs_one {s t : State} : Runs 1 s t ↔ step s = .next t := by simp [runs_succ]

/-! ### How far a command is from its end -/

/-- A bound on the engine steps a consistent engine still takes, by its phase (the table of R198). -/
def stepsLeft (cap : Nat) (s : State) : Nat :=
  match s.phase with
  | .idle => 0
  | .commit => 1
  | .unpad => 2
  | .chain => s.nblk - s.blk + 2
  | .lencheck => cap / 16 + 3
  | .validate => cap / 16 + 4
  | .decode => cap / 16 + 5

theorem stepsLeft_pos {cap : Nat} {s : State} (h : s.phase ≠ .idle) : 0 < stepsLeft cap s := by
  unfold stepsLeft
  split
  case h_1 hp => exact absurd hp h
  all_goals omega

/-- In CHAIN a step for each block left, and two more; there are no more blocks than the stores hold. -/
theorem stepsLeft_le_of_chain {P : Platform} {s : State} (h : s.ConsistentOn P.bufcap) (hp : s.phase = .chain) :
    stepsLeft P.bufcap s ≤ P.bufcap / 16 + 2 := by
  obtain ⟨i, hd⟩ := exists_decode_of_consistentOn h (by simp [hp]) (by simp [hp])
  obtain ⟨hc, -⟩ := chaining_of_chain h hp hd
  have := blocks_le_of_chaining hc
  simp only [stepsLeft, hp]
  omega

/-- A stored block ends the chain, or is one block fewer (R194, R195). -/
theorem stepsLeft_blockStored_lt {cap : Nat} {s : State} (hp : s.phase = .chain) (hlt : s.blk < s.nblk)
    (c : CipherCall) (b next : Block) (wlen : Nat) {phase : Phase}
    (h : phase = .commit ∨ phase = .unpad ∨ phase = .chain) :
    stepsLeft cap (blockStored c b next wlen phase s) < stepsLeft cap s := by
  obtain rfl | rfl | rfl := h <;> simp only [stepsLeft, blockStored, hp, emit_nblk] <;> omega

theorem stepsLeft_encryptRequest_lt {P : Platform} {key : Key} {cap : Nat} {s : State} (hp : s.phase = .chain)
    (hlt : s.blk < s.nblk) : stepsLeft cap (encryptRequest P key s) < stepsLeft cap s := by
  obtain ⟨ce, -, he⟩ | ⟨e, -, he⟩ := encryptRequest_cases P key s <;> rw [he]
  · exact stepsLeft_pos (by simp [hp])
  · rw [encryptStore_eq]
    split <;> exact stepsLeft_blockStored_lt hp hlt _ _ _ _ (by simp [hp])

theorem stepsLeft_decryptRequest_lt {P : Platform} {key : Key} {cap : Nat} {s : State} (hp : s.phase = .chain)
    (hlt : s.blk < s.nblk) : stepsLeft cap (decryptRequest P key s) < stepsLeft cap s := by
  obtain ⟨ce, -, he⟩ | ⟨d, -, he⟩ := decryptRequest_cases P key s <;> rw [he]
  · exact stepsLeft_pos (by simp [hp])
  · rw [decryptStore_eq]
    split <;> exact stepsLeft_blockStored_lt hp hlt _ _ _ _ (by simp [hp])

theorem stepsLeft_encryptStep_lt {P : Platform} {klen ivlen : Nat} {s t : State} (ht : t.ConsistentOn P.bufcap)
    (hi : s.phase ≠ .idle) (hs : encryptStep P klen ivlen s = .next t) :
    stepsLeft P.bufcap t < stepsLeft P.bufcap s := by
  have hpos : 0 < stepsLeft P.bufcap s := stepsLeft_pos hi
  obtain ⟨hp, -⟩ | ⟨hp, he⟩ | ⟨hp, he⟩ | ⟨hp, hlt, -, key, -, he⟩ | ⟨-, he⟩ := encryptStep_cases hs
  · exact absurd hp hi
  · rw [he, encryptDecode]
    split
    · exact hpos
    · simp [stepsLeft, hp]
  · have hs : stepsLeft P.bufcap s = P.bufcap / 16 + 4 := by simp [stepsLeft, hp]
    rw [encryptValidate] at he
    split at he <;> rw [he] at ht ⊢
    · have hle := stepsLeft_le_of_chain ht rfl
      omega
    · exact hpos
  · rw [he]
    exact stepsLeft_encryptRequest_lt hp hlt
  · rw [he]
    exact hpos

theorem stepsLeft_decryptStep_lt {P : Platform} {klen ivlen : Nat} {s t : State} (ht : t.ConsistentOn P.bufcap)
    (hi : s.phase ≠ .idle) (hs : decryptStep P klen ivlen s = .next t) :
    stepsLeft P.bufcap t < stepsLeft P.bufcap s := by
  have hpos : 0 < stepsLeft P.bufcap s := stepsLeft_pos hi
  obtain ⟨hp, -⟩ | ⟨hp, he⟩ | ⟨hp, he⟩ | ⟨hp, he⟩ | ⟨hp, hlt, -, key, -, he⟩ | ⟨hp, -, -, he⟩ | ⟨-, he⟩ :=
    decryptStep_cases hs
  · exact absurd hp hi
  · rw [he, decryptDecode]
    split
    · exact hpos
    · simp [stepsLeft, hp]
  · rw [he, decryptValidate]
    split
    · simp [stepsLeft, hp]
    · exact hpos
  · have hs : stepsLeft P.bufcap s = P.bufcap / 16 + 3 := by simp [stepsLeft, hp]
    rw [decryptLencheck] at he
    split at he <;> rw [he] at ht ⊢
    · exact hpos
    · have hle := stepsLeft_le_of_chain ht rfl
      omega
  · rw [he]
    exact stepsLeft_decryptRequest_lt hp hlt
  · rw [he]
    obtain ⟨-, hu⟩ | ⟨n, -, hu⟩ := unpadLast_cases s <;> rw [hu]
    · exact hpos
    · simp [stepsLeft, hp]
  · rw [he]
    exact hpos

/-- Every engine step of a command in progress brings its end nearer (R198). -/
theorem stepsLeft_engineStep_lt {P : Platform} {s t : State} (h : s.ConsistentOn P.bufcap) (hi : s.phase ≠ .idle)
    (hs : engineStep (execOn P) s = .next t) : stepsLeft P.bufcap t < stepsLeft P.bufcap s := by
  have ht := engineStep_consistentOn h hs
  obtain ⟨hp, -⟩ | ⟨-, i, -, he⟩ | ⟨-, e, -, he⟩ := engineStep_cases hs
  · exact absurd hp hi
  · cases i with
    | encrypt klen ivlen => exact stepsLeft_encryptStep_lt ht hi he.symm
    | decrypt klen ivlen => exact stepsLeft_decryptStep_lt ht hi he.symm
  · obtain ⟨hp, -⟩ | ⟨-, rfl⟩ | ⟨-, rfl⟩ := illegalStep_cases he.symm
    · exact absurd hp hi
    · exact stepsLeft_pos hi
    · exact stepsLeft_pos hi

/-! ### `WAIT` -/

/-- What `WAIT` looks at is `DONE` (R64, R100). -/
theorem doneBit_hostReadReg {s : State} (h : StatusHolds s) : doneBit (hostReadReg 2 s) = s.status.done := by
  obtain ⟨-, -, hdone, -⟩ := status_word_cases h
  exact hdone

/-- `s` after one poll of `STATUS`. -/
def polled (s : State) : State := recordRead (.register 2 (hostReadReg 2 s)) s

theorem waitRound_of_done {s : State} {rest : List HostEvent} (h : StatusHolds s) (hd : s.status.done = true) :
    waitRound rest s = { polled s with pending := rest } := by
  simp only [waitRound, doneBit_hostReadReg h, hd, if_true, polled]

theorem waitRound_of_not_done {s : State} {rest : List HostEvent} (h : StatusHolds s) (hd : s.status.done = false) :
    waitRound rest s = { polled s with pending := .engineTurn :: .wait :: rest } := by
  simp [waitRound, doneBit_hostReadReg h, hd, polled]

/-- A round of `WAIT` while a command is in progress is one step of the command. -/
theorem runs_wait_round {s : State} {rest : List HostEvent} (h : s.Consistent) (hb : s.status.busy = true)
    (hp : s.pending = .wait :: rest) :
    ∃ t : State, Runs 2 s t ∧ t.Consistent ∧ t.pending = .wait :: rest ∧
      stepsLeft Config.platform.bufcap t < stepsLeft Config.platform.bufcap s ∧
      (t.phase = .idle → t.status.done = true) := by
  have hi : s.phase ≠ .idle := h.1.1.1 hb
  have hu : State.Consistent { polled s with pending := .wait :: rest } := consistentOn_of_engine_eq h rfl
  obtain ⟨t, ht⟩ := engineStep_progress hu
  have hm := engineStep_move ht
  have hlt := stepsLeft_engineStep_lt hu hi ht
  refine ⟨t, ?_, engineStep_consistentOn hu ht, hm.frame.pending, hlt, hm.done_of_idle hi⟩
  refine runs_succ.2 ⟨_, step_of_wait hp, runs_one.2 ?_⟩
  rw [waitRound_of_not_done h.1 (h.1.2.1 hb), step_of_engineTurn rfl, exec_eq_execOn]
  exact ht

/-- `WAIT` ends, by induction on the steps the command has left. -/
theorem wait_ends {rest : List HostEvent} (k : Nat) {s : State} (h : s.Consistent)
    (hk : stepsLeft Config.platform.bufcap s ≤ k) (hp : s.pending = .wait :: rest)
    (hdone : s.phase = .idle → s.status.done = true) :
    ∃ (n : Nat) (t : State), Runs n s t ∧ t.pending = rest ∧ t.phase = .idle ∧ t.status.done = true := by
  induction k generalizing s with
  | zero =>
    have hi : s.phase = .idle := by
      by_contra hi
      have := stepsLeft_pos (cap := Config.platform.bufcap) hi
      omega
    refine ⟨1, _, runs_one.2 (step_of_wait hp), ?_⟩
    rw [waitRound_of_done h.1 (hdone hi)]
    exact ⟨rfl, hi, hdone hi⟩
  | succ k ih =>
    by_cases hb : s.status.busy = true
    · obtain ⟨u, hu, hcons, hpend, hlt, hdone'⟩ := runs_wait_round h hb hp
      obtain ⟨n, t, hn, ht⟩ := ih hcons (by omega) hpend hdone'
      exact ⟨2 + n, t, runs_add hu hn, ht⟩
    · have hi := idle_of_not_busy h (by simpa using hb)
      refine ih h ?_ hp hdone
      simp [stepsLeft, hi]

/-- Settles O29: a busy engine is not idle, so its `WAIT` ends with `DONE` set. -/
theorem waitEndsWithTheCommandDone : Obligations.WaitEndsWithTheCommandDone := by
  unfold Obligations.WaitEndsWithTheCommandDone
  intro s rest h hb hp
  exact wait_ends _ h le_rfl hp fun hi => absurd hi (h.1.1.1 hb)

/-! ### `MOVEOUT` -/

/-- The two accesses that copy byte `i`, which reads as `v i`, from `OBUF` to `IBUF`. -/
def copyByte (v : Nat → Byte) (i : Nat) : List Access := [.readByte .obuf i, .writeByte .ibuf i (v i)]

/-- What the host reads at index `i` of the result. -/
def resultByte (s : State) (i : Nat) : Byte := hostReadByte Config.platform.bufcap .obuf i s

theorem moveoutAccesses_eq (s : State) :
    moveoutAccesses Config.platform.bufcap s =
      (List.range' 0 s.olen.toNat).flatMap (copyByte (resultByte s)) ++ [.writeReg 1 s.olen] := by
  simp only [moveoutAccesses, hostReadReg, List.range_eq_range', BitVec.ofNat_toNat, BitVec.setWidth_eq]
  rfl

theorem hostWriteByte_ibuf {cap i : Nat} {v : Byte} {s : State} (hb : s.status.busy = false) (hi : i < cap) :
    hostWriteByte cap .ibuf i v s = { s with ibuf := s.ibuf.write i v } := by
  simp [hostWriteByte, hb, storeSize, Nat.not_le.2 hi]

theorem runs_copyByte {v : Nat → Byte} {i : Nat} {rest : List HostEvent} {s : State} (hb : s.status.busy = false)
    (hi : i < Config.platform.bufcap) (hp : s.pending = (copyByte v i).map .access ++ rest) :
    Runs 2 s { s with
      pending := rest, reads := s.reads ++ [.byte .obuf i (resultByte s i)], ibuf := s.ibuf.write i (v i) } := by
  refine runs_succ.2 ⟨_, step_of_access (rest := .access (.writeByte .ibuf i (v i)) :: rest) hp, runs_one.2 ?_⟩
  rw [step_of_access rfl]
  exact congrArg Host.Outcome.next (hostWriteByte_ibuf hb hi)

/-- The copies of the bytes `a` to `a + m - 1`, one after another, write those bytes to `IBUF`. -/
theorem runs_copyBytes (v : Nat → Byte) (rest : List HostEvent) (m : Nat) {s : State} {a : Nat}
    (hb : s.status.busy = false) (hcap : a + m ≤ Config.platform.bufcap)
    (hp : s.pending = ((List.range' a m).flatMap (copyByte v)).map .access ++ rest) :
    ∃ reads, Runs (2 * m) s
      { s with pending := rest, reads := reads, ibuf := s.ibuf.writeBytes a ((List.range' a m).map v) } := by
  induction m generalizing s a with
  | zero => exact ⟨s.reads, runs_zero.2 (by rw [← show s.pending = rest from hp]; rfl)⟩
  | succ m ih =>
    have hcopy := runs_copyByte (rest := ((List.range' (a + 1) m).flatMap (copyByte v)).map .access ++ rest) hb
      (by omega) hp
    obtain ⟨reads, hrest⟩ := ih (a := a + 1) (s := { s with
      pending := _, reads := _, ibuf := s.ibuf.write a (v a) }) hb (by omega) rfl
    refine ⟨reads, ?_⟩
    rw [Nat.mul_succ, Nat.add_comm]
    exact runs_add hcopy hrest

/-- The result of an idle engine fits the stores (R34). -/
theorem olen_le_of_idle {cap : Nat} {s : State} (h : s.ConsistentOn cap) (hp : s.phase = .idle) :
    s.olen.toNat ≤ cap := by
  obtain ⟨-, -, hph⟩ := h
  simp only [PhaseHolds, hp] at hph
  obtain ⟨-, -, -, -, -, hcap, -⟩ := hph
  exact hcap

/-- The host reads the result of an engine that is not busy as it is (R66). -/
theorem resultByte_of_not_busy {i : Nat} {s : State} (hb : s.status.busy = false) (hi : i < Config.platform.bufcap) :
    resultByte s i = s.obuf.read i := by
  simp [resultByte, hostReadByte, hb, storeSize, Nat.not_le.2 hi, State.storeByte]

/-- Settles O30: the read of `OLEN`, the copies of the bytes below it, and the write of `ILEN`. -/
theorem moveoutFeedsTheResultBack : Obligations.MoveoutFeedsTheResultBack := by
  unfold Obligations.MoveoutFeedsTheResultBack
  intro s rest h hb hp
  have holen := olen_le_of_idle h (idle_of_not_busy h hb)
  have hbegun : (beginMoveout Config.platform.bufcap rest s).pending =
      ((List.range' 0 s.olen.toNat).flatMap (copyByte (resultByte s))).map .access ++
        (.access (.writeReg 1 s.olen) :: rest) := by
    simp [beginMoveout, moveoutAccesses_eq]
  obtain ⟨reads, hcopy⟩ := runs_copyBytes (s := beginMoveout Config.platform.bufcap rest s) _ _ _ hb (by omega) hbegun
  refine ⟨{ s with
      pending := rest, reads := reads, ilen := s.olen
      ibuf := s.ibuf.writeBytes 0 ((List.range' 0 s.olen.toNat).map (resultByte s)) }, ?_, rfl, fun a => ?_⟩
  · rw [show 2 * s.olen.toNat + 2 = 1 + 2 * s.olen.toNat + 1 by omega]
    refine runs_add (runs_add (runs_one.2 (step_of_moveout hp)) hcopy) (runs_one.2 ?_)
    rw [step_of_access rfl]
    simp [performAccess, hostWriteReg, beginMoveout, recordRead, hb]
  · obtain ⟨-, ⟨hiwf, -⟩, -⟩ := h
    simp only [Memory.read_writeBytes _ hiwf, Nat.zero_le, if_true, Nat.sub_zero, List.getElem?_map]
    split
    · rename_i ha
      simp [ha, resultByte_of_not_busy hb (Nat.lt_of_lt_of_le ha holen)]
    · rename_i ha
      simp [Nat.not_lt.1 ha]

end Sys2Proof.Machine

/-! PROOFS. A whole command on the machine: from START the engine steps reach the state that shows the big-step result
(spec/43_mode_facade.md R190 to R199), and so every command word completes with its code (spec/60_exceptions.md R225 to
R231). -/

namespace Sys2Proof.Machine

/-! ### The message as blocks -/

/-- The bytes of a full chunk of the message are those of `IBUF` (R130, R133). -/
theorem fullBlock_message {s : State} {k : Nat} (hk : k < s.msgLen / 16) : fullBlock s.message k = ciphertextBlock s k := by
  ext j hj : 1
  have hin : 16 * k + j < s.msgLen := by omega
  rw [getElem_fullBlock _ _ _ hj, getElem_ciphertextBlock _ _ _ hj, getElem?_message, if_pos hin, Option.getD_some]

/-- `PB(k)` of a full chunk is that chunk (R131). -/
theorem plaintextBlock_of_lt {s : State} {k : Nat} (hk : k < s.msgLen / 16) : plaintextBlock s k = ciphertextBlock s k := by
  ext j hj : 1
  have hin : 16 * k + j < s.msgLen := by omega
  rw [getElem_plaintextBlock _ _ _ hj, getElem_ciphertextBlock _ _ _ hj, if_pos hin]

/-- The last `PB` is the final chunk, padded (R110, R131). -/
theorem pad_finalChunk_message (s : State) :
    pad (finalChunk s.message) (finalChunk_short s.message) = plaintextBlock s (s.msgLen / 16) := by
  have hsize : padSize (finalChunk s.message).length = padSize s.msgLen := by
    simp [padSize, finalChunk_length]
  ext j hj : 1
  rw [getElem_pad _ _ _ hj, getElem_plaintextBlock _ _ _ hj, hsize, finalChunk, List.getElem?_drop, length_message,
    getElem?_message]
  split <;> rfl

/-- The block a CHAIN step of the command fetches for index `k` (R131, R133). -/
def blockAt (i : Instr) (s : State) (k : Nat) : Block :=
  match i with
  | .encrypt _ _ => plaintextBlock s k
  | .decrypt _ _ => ciphertextBlock s k

/-- The blocks a command chains over, in order. -/
def commandBlocks (i : Instr) (s : State) : List Block := (List.range' 0 (blocksOf i s.msgLen)).map (blockAt i s)

theorem split_message (klen ivlen : Nat) (s : State) : split s.message = commandBlocks (.encrypt klen ivlen) s := by
  have hfull : (List.range (s.msgLen / 16)).map (fullBlock s.message) =
      (List.range (s.msgLen / 16)).map (plaintextBlock s) :=
    List.map_congr_left fun k hk => by
      have hk := List.mem_range.1 hk
      rw [fullBlock_message hk, plaintextBlock_of_lt hk]
  simp only [split, commandBlocks, blocksOf, encryptBlocks, ← List.range_eq_range', List.range_succ, List.map_append,
    List.map_singleton, length_message, hfull, pad_finalChunk_message]
  rfl

theorem ctsplit_message (klen ivlen : Nat) (s : State) : ctsplit s.message = commandBlocks (.decrypt klen ivlen) s := by
  simp only [ctsplit, commandBlocks, blocksOf, decryptBlocks, ← List.range_eq_range', length_message]
  exact List.map_congr_left fun k hk => fullBlock_message (List.mem_range.1 hk)

/-! ### Stores of several blocks -/

theorem Memory.writeBytes_append (xs ys : List Byte) (m : Memory) (a : Nat) :
    m.writeBytes a (xs ++ ys) = (m.writeBytes a xs).writeBytes (a + xs.length) ys := by
  induction xs generalizing m a with
  | nil => rfl
  | cons x xs ih =>
    rw [List.cons_append, Memory.writeBytes, Memory.writeBytes, ih, List.length_cons, Nat.add_right_comm, Nat.add_assoc]

@[simp] theorem concat_nil : concat [] = [] := rfl

@[simp] theorem concat_cons (b : Block) (blocks : List Block) : concat (b :: blocks) = b.toList ++ concat blocks := by
  simp [concat]

@[simp] theorem concat_append (xs ys : List Block) : concat (xs ++ ys) = concat xs ++ concat ys := by simp [concat]

@[simp] theorem length_concat (blocks : List Block) : (concat blocks).length = 16 * blocks.length := by
  induction blocks with
  | nil => rfl
  | cons b blocks ih => rw [concat_cons, List.length_append, ih, Vector.length_toList, List.length_cons]; omega

/-- A block stored and then more blocks behind it (R134). -/
theorem Memory.writeBytes_concat_cons (m : Memory) (k : Nat) (b : Block) (blocks : List Block) :
    m.writeBytes (16 * k) (concat (b :: blocks)) =
      (m.writeBlock (16 * k) b).writeBytes (16 * (k + 1)) (concat blocks) := by
  rw [concat_cons, Memory.writeBytes_append, Vector.length_toList, Memory.writeBlock, Nat.mul_succ]

/-! ### The CHAIN phase -/

/-- The chain step of a command (R154, R155). -/
def chainStep (P : Platform) (key : Key) : Instr → Block → Block → CipherCall × ChainStep
  | .encrypt _ _ => encStep P key
  | .decrypt _ _ => decStep P key

/-- Where a command goes after its last block (R194, R195). -/
def afterChain : Instr → Phase
  | .encrypt _ _ => .commit
  | .decrypt _ _ => .unpad

/-- `WLEN` after the last block (R194). -/
def wlenAfterChain (i : Instr) (s : State) : Nat :=
  match i with
  | .encrypt _ _ => 16 * s.nblk
  | .decrypt _ _ => s.wlen

/-- What a CHAIN step leaves, of either command (R194, R195). -/
def chainRequest (P : Platform) (key : Key) (i : Instr) (s : State) : State :=
  match chainStep P key i s.chain (blockAt i s s.blk) with
  | (c, .ok b next) =>
    if s.blk + 1 = s.nblk then blockStored c b next (wlenAfterChain i s) (afterChain i) s
    else blockStored c b next s.wlen s.phase s
  | (c, .err ce) => fail .underlyingCipherFailure ce (emit c s)

theorem encryptRequest_eq (P : Platform) (key : Key) (klen ivlen : Nat) (s : State) :
    encryptRequest P key s = chainRequest P key (.encrypt klen ivlen) s := by
  simp only [encryptRequest, chainRequest, chainStep, blockAt]
  obtain ⟨c, _ | _⟩ := encStep P key s.chain (plaintextBlock s s.blk) <;> rfl

theorem decryptRequest_eq (P : Platform) (key : Key) (klen ivlen : Nat) (s : State) :
    decryptRequest P key s = chainRequest P key (.decrypt klen ivlen) s := by
  simp only [decryptRequest, chainRequest, chainStep, blockAt]
  obtain ⟨c, _ | _⟩ := decStep P key s.chain (ciphertextBlock s s.blk) <;> rfl

/-- One engine step of a command in progress, with nothing on its way from outside. -/
theorem runsOn_one_of_execOn {P : Platform} {s t : State} {i : Instr} (hpending : s.pending = [])
    (hp : s.phase ≠ .idle) (hd : decode s.cmd = .ok i) (h : execOn P i s = .next t) : RunsOn P 1 s t := by
  refine runsOn_succ.2 ⟨t, ?_, runsOn_zero.2 rfl⟩
  rw [stepOn_of_pending_nil hpending, engineStep_of_decode hp hd, h]

/-- A command with a block left to chain over, and a key. -/
structure InChain (P : Platform) (key : Key) (i : Instr) (s : State) : Prop where
  pending : s.pending = []
  phase : s.phase = .chain
  decoded : decode s.cmd = .ok i
  left : s.blk < s.nblk
  fits : 16 * s.nblk ≤ P.bufcap
  keyed : keyOperand s.key i.klen = some key

theorem InChain.runsOn_one {P : Platform} {key : Key} {i : Instr} {s : State} (h : InChain P key i s) :
    RunsOn P 1 s (chainRequest P key i s) := by
  refine runsOn_one_of_execOn h.pending (by simp [h.phase]) h.decoded ?_
  cases i with
  | encrypt klen ivlen =>
    simp only [execOn, encryptStep, h.phase, ← encryptRequest_eq]
    exact encryptChain_of_guards h.left h.fits h.keyed
  | decrypt klen ivlen =>
    simp only [execOn, decryptStep, h.phase, ← decryptRequest_eq]
    exact decryptChain_of_guards h.left h.fits h.keyed

/-- The state after the last block: the requests `calls` recorded, the blocks `outs` stored from `BLK` on. -/
def chainDone (i : Instr) (calls : List CipherCall) (outs : List Block) (chain : Block) (s : State) : State :=
  { s with
    trace := s.trace ++ calls, obuf := s.obuf.writeBytes (16 * s.blk) (concat outs), chain := chain, blk := s.nblk
    wlen := wlenAfterChain i s, phase := afterChain i }

/-- The CHAIN phase of `s` goes as the big-step chain answers: one step for each request, then the failure of the last
one, or the blocks stored. -/
def ChainEnds (P : Platform) (i : Instr) (s : State) : List CipherCall × Except CipherError (List Block) → Prop
  | (calls, .error ce) =>
    RunsOn P calls.length s (fail .underlyingCipherFailure ce { s with trace := s.trace ++ calls })
  | (calls, .ok outs) => ∃ chain, RunsOn P calls.length s (chainDone i calls outs chain s)

/-- The CHAIN phase that fails at its first block (R159). -/
theorem chainEnds_of_err {P : Platform} {key : Key} {i : Instr} {s : State} {c : CipherCall} {ce : CipherError}
    (h : InChain P key i s) (hstep : chainStep P key i s.chain (blockAt i s s.blk) = (c, .err ce)) :
    ChainEnds P i s ([c], .error ce) := by
  have hrun := h.runsOn_one
  rw [chainRequest, hstep] at hrun
  exact hrun

/-- The CHAIN phase that stores its last block. -/
theorem chainEnds_of_last {P : Platform} {key : Key} {i : Instr} {s : State} {c : CipherCall} {b next : Block}
    (h : InChain P key i s) (hstep : chainStep P key i s.chain (blockAt i s s.blk) = (c, .ok b next))
    (hlast : s.blk + 1 = s.nblk) : ChainEnds P i s ([c], .ok [b]) := by
  have hrun := h.runsOn_one
  simp only [chainRequest, hstep, if_pos hlast] at hrun
  refine ⟨next, ?_⟩
  simpa [chainDone, blockStored, emit, ← hlast, Memory.writeBlock, concat] using hrun

/-- Blocks stored behind a first one are blocks stored. -/
theorem chainDone_blockStored (i : Instr) (c : CipherCall) (calls : List CipherCall) (b next : Block)
    (outs : List Block) (chain : Block) (s : State) :
    chainDone i calls outs chain (blockStored c b next s.wlen .chain s) =
      chainDone i (c :: calls) (b :: outs) chain s := by
  have hwlen : wlenAfterChain i (blockStored c b next s.wlen .chain s) = wlenAfterChain i s := by cases i <;> rfl
  simp only [chainDone, hwlen, Memory.writeBytes_concat_cons]
  simp [blockStored, emit]

/-- The CHAIN phase that stores a block and goes on. -/
theorem chainEnds_of_stored {P : Platform} {key : Key} {i : Instr} {s : State} {c : CipherCall} {b next : Block}
    {calls : List CipherCall} {result : Except CipherError (List Block)}
    (h : InChain P key i s) (hstep : chainStep P key i s.chain (blockAt i s s.blk) = (c, .ok b next))
    (hmore : s.blk + 1 ≠ s.nblk) (hrest : ChainEnds P i (blockStored c b next s.wlen .chain s) (calls, result)) :
    ChainEnds P i s (c :: calls, result.map (b :: ·)) := by
  have hrun := h.runsOn_one
  simp only [chainRequest, hstep, if_neg hmore, h.phase] at hrun
  cases result with
  | error ce =>
    have hall := runsOn_add hrun hrest
    simpa [ChainEnds, Except.map, blockStored, emit, fail, Nat.add_comm 1] using hall
  | ok outs =>
    obtain ⟨chain, hrest⟩ := hrest
    have hall := runsOn_add hrun hrest
    rw [chainDone_blockStored, Nat.add_comm 1] at hall
    exact ⟨chain, hall⟩

/-- A big-step chain, by what the step on its first block answers (R156, R159). -/
theorem runChain_cons {step : Block → Block → CipherCall × ChainStep} {state b : Block} (rest : List Block) :
    (∃ c ce, step state b = (c, .err ce) ∧ runChain step state (b :: rest) = ([c], .error ce)) ∨
    (∃ c out next, step state b = (c, .ok out next) ∧
      runChain step state (b :: rest) =
        (c :: (runChain step next rest).1, (runChain step next rest).2.map (out :: ·))) := by
  rcases hstep : step state b with ⟨c, ⟨out, next⟩ | ce⟩
  · refine .inr ⟨c, out, next, rfl, ?_⟩
    rcases hrest : runChain step next rest with ⟨calls, _ | _⟩ <;> simp [runChain, hstep, hrest, Except.map]
  · exact .inl ⟨c, ce, rfl, by simp [runChain, hstep]⟩

/-- The CHAIN phase goes as the big-step chain over the blocks left, by induction on their number (R156, R157). -/
theorem chainEnds_runChain {P : Platform} {key : Key} {i : Instr} (m : Nat) {s : State} (h : InChain P key i s)
    (hm : s.blk + 1 + m = s.nblk) :
    ChainEnds P i s (runChain (chainStep P key i) s.chain ((List.range' s.blk (m + 1)).map (blockAt i s))) := by
  induction m generalizing s with
  | zero =>
    obtain ⟨c, ce, hstep, hrun⟩ | ⟨c, b, next, hstep, hrun⟩ :=
      runChain_cons (step := chainStep P key i) (state := s.chain) (b := blockAt i s s.blk) []
    · exact hrun ▸ chainEnds_of_err h hstep
    · exact hrun ▸ chainEnds_of_last h hstep hm
  | succ m ih =>
    rw [List.range'_succ, List.map_cons]
    obtain ⟨c, ce, hstep, hrun⟩ | ⟨c, b, next, hstep, hrun⟩ := runChain_cons (step := chainStep P key i)
      (state := s.chain) (b := blockAt i s s.blk) ((List.range' (s.blk + 1) (m + 1)).map (blockAt i s))
    · exact hrun ▸ chainEnds_of_err h hstep
    · rw [hrun]
      have hblocks : blockAt i (blockStored c b next s.wlen .chain s) = blockAt i s := by cases i <;> rfl
      have hin : InChain P key i (blockStored c b next s.wlen .chain s) :=
        ⟨h.pending, rfl, h.decoded, show s.blk + 1 < s.nblk by omega, h.fits, h.keyed⟩
      have hrest := ih hin (show s.blk + 1 + 1 + m = s.nblk by omega)
      rw [hblocks] at hrest
      exact chainEnds_of_stored h hstep (by omega) hrest

/-! ### The checks before the chain -/

/-- A legal command within capacity, written to an engine with nothing else on its way. -/
structure Issued (P : Platform) (w : Word) (i : Instr) (s : State) : Prop where
  pending : s.pending = []
  decoded : decode w = .ok i
  admitted : Admitted P.bufcap i s.msgLen

/-- DECODE passed (R191). -/
theorem Issued.runsOn_decode {P : Platform} {w : Word} {i : Instr} {s : State} (h : Issued P w i s) :
    RunsOn P 1 (start w s) { start w s with phase := .validate } := by
  refine runsOn_one_of_execOn h.pending (by simp) h.decoded ?_
  have ha := h.admitted
  cases i with
  | encrypt => simp [execOn, encryptStep, encryptDecode, show ¬ P.bufcap ≤ s.msgLen from Nat.not_le.2 ha]
  | decrypt => simp [execOn, decryptStep, decryptDecode, show ¬ P.bufcap < s.msgLen from Nat.not_lt.2 ha]

/-- DECODE of a legal word beyond capacity (R191, R227). -/
theorem runsOn_beyondCapacity {P : Platform} {w : Word} {i : Instr} {s : State} (hpending : s.pending = [])
    (hd : decode w = .ok i) (ha : ¬Admitted P.bufcap i s.msgLen) :
    RunsOn P 1 (start w s) (fail .capacityExceeded 0 (start w s)) := by
  refine runsOn_one_of_execOn hpending (by simp) hd ?_
  cases i with
  | encrypt => simp [execOn, encryptStep, encryptDecode, show P.bufcap ≤ s.msgLen from Nat.not_lt.1 ha]
  | decrypt => simp [execOn, decryptStep, decryptDecode, show P.bufcap < s.msgLen from Nat.not_le.1 ha]

/-- DECODE of an illegal word (R191, R225). -/
theorem runsOn_illegal (P : Platform) {w : Word} {e : Illegal} {s : State} (hpending : s.pending = [])
    (hd : decode w = .error e) : RunsOn P 1 (start w s) (fail .illegalCommand 0 (start w s)) := by
  refine runsOn_succ.2 ⟨fail .illegalCommand 0 (start w s), ?_, runsOn_zero.2 rfl⟩
  rw [stepOn_of_pending_nil (s := start w s) hpending, engineStep_of_illegal (s := start w s) (by simp) hd]
  rfl

/-- VALIDATE failed (R192). -/
theorem Issued.runsOn_invalidParameters {P : Platform} {w : Word} {i : Instr} {s : State} (h : Issued P w i s)
    (hv : ¬ValidParameters i.klen i.ivlen) : RunsOn P 2 (start w s) (fail .invalidParameters 0 (start w s)) := by
  refine runsOn_add h.runsOn_decode (runsOn_one_of_execOn h.pending (by simp) h.decoded ?_)
  cases i with
  | encrypt => exact congrArg Host.Outcome.next (if_neg hv)
  | decrypt => exact congrArg Host.Outcome.next (if_neg hv)

/-- The state in which the chain of a command begins (R161, R192, R193). -/
def chainBegun (i : Instr) (w : Word) (s : State) : State :=
  { start w s with nblk := blocksOf i s.msgLen, chain := s.iv, phase := .chain }

/-- The last check of an ENCRYPT passed (R192). -/
theorem Issued.runsOn_chainBegun_encrypt {P : Platform} {w : Word} {klen ivlen : Nat} {s : State}
    (h : Issued P w (.encrypt klen ivlen) s) (hv : ValidParameters klen ivlen) :
    RunsOn P 2 (start w s) (chainBegun (.encrypt klen ivlen) w s) :=
  runsOn_add h.runsOn_decode
    (runsOn_one_of_execOn h.pending (by simp) h.decoded (congrArg Host.Outcome.next (if_pos hv)))

/-- VALIDATE of a DECRYPT passed (R192). -/
theorem Issued.runsOn_lencheck {P : Platform} {w : Word} {klen ivlen : Nat} {s : State}
    (h : Issued P w (.decrypt klen ivlen) s) (hv : ValidParameters klen ivlen) :
    RunsOn P 2 (start w s) { start w s with phase := .lencheck } :=
  runsOn_add h.runsOn_decode
    (runsOn_one_of_execOn h.pending (by simp) h.decoded (congrArg Host.Outcome.next (if_pos hv)))

/-- LENCHECK passed (R193). -/
theorem Issued.runsOn_chainBegun_decrypt {P : Platform} {w : Word} {klen ivlen : Nat} {s : State}
    (h : Issued P w (.decrypt klen ivlen) s) (hv : ValidParameters klen ivlen)
    (hlen : ¬(s.msgLen % 16 ≠ 0 ∨ s.msgLen < 16)) :
    RunsOn P 3 (start w s) (chainBegun (.decrypt klen ivlen) w s) :=
  runsOn_add (h.runsOn_lencheck hv)
    (runsOn_one_of_execOn h.pending (by simp) h.decoded (congrArg Host.Outcome.next (if_neg hlen)))

/-- LENCHECK failed (R193). -/
theorem Issued.runsOn_invalidLength {P : Platform} {w : Word} {klen ivlen : Nat} {s : State}
    (h : Issued P w (.decrypt klen ivlen) s) (hv : ValidParameters klen ivlen)
    (hlen : s.msgLen % 16 ≠ 0 ∨ s.msgLen < 16) :
    RunsOn P 3 (start w s) (fail .invalidCiphertextLength 0 (start w s)) :=
  runsOn_add (h.runsOn_lencheck hv)
    (runsOn_one_of_execOn h.pending (by simp) h.decoded (congrArg Host.Outcome.next (if_pos hlen)))

/-- The answer of the big-step chain of a command on the operands `s` holds (R156, R157). -/
def chainAnswer (P : Platform) (key : Key) (i : Instr) (s : State) :
    List CipherCall × Except CipherError (List Block) :=
  runChain (chainStep P key i) s.iv (commandBlocks i s)

/-- The CHAIN phase of a command goes as its big-step chain. -/
theorem Issued.chainEnds {P : Platform} {w : Word} {i : Instr} {s : State} {key : Key} (h : Issued P w i s)
    (hk : keyOperand s.key i.klen = some key) (hlen : LengthChecked i s.msgLen) :
    ChainEnds P i (chainBegun i w s) (chainAnswer P key i s) := by
  have hpos : 0 < blocksOf i s.msgLen := blocksOf_pos hlen
  have hin : InChain P key i (chainBegun i w s) :=
    ⟨h.pending, rfl, h.decoded, hpos, blocksOf_le h.admitted, hk⟩
  have hends := chainEnds_runChain (blocksOf i s.msgLen - 1) hin
    (show 0 + 1 + (blocksOf i s.msgLen - 1) = blocksOf i s.msgLen by omega)
  have hblocks : blockAt i (chainBegun i w s) = blockAt i s := by cases i <;> rfl
  rw [Nat.sub_add_cancel hpos, hblocks] at hends
  exact hends

theorem length_of_chainAnswer {P : Platform} {key : Key} {i : Instr} {s : State} {calls : List CipherCall}
    {outs : List Block} (h : chainAnswer P key i s = (calls, .ok outs)) : outs.length = blocksOf i s.msgLen := by
  have hlen := runChain_ok_length (congrArg Prod.snd h)
  simpa [commandBlocks] using hlen

/-! ### The big-step result, by cases -/

theorem facadeResult_of_invalid {P : Platform} {i : Instr} {s : State} (h : ¬ValidParameters i.klen i.ivlen) :
    facadeResult P i s = ([], .error .invalidParameters) := by
  have hnone : keyOperand s.key i.klen = none ∨ ivOperand s.iv i.ivlen = none := by
    by_cases hv : i.ivlen = 16
    · exact .inl (dif_neg fun hk => h ⟨hv, hk⟩)
    · exact .inr (if_neg hv)
  cases i with
  | encrypt klen ivlen =>
    simp only [Instr.klen, Instr.ivlen] at hnone
    simp only [facadeResult, facadeEncrypt]
    split
    · simp_all
    · rfl
  | decrypt klen ivlen =>
    simp only [Instr.klen, Instr.ivlen] at hnone
    simp only [facadeResult, facadeDecrypt]
    split
    · simp_all
    · rfl

theorem encChain_split (P : Platform) (key : Key) (klen ivlen : Nat) (s : State) :
    encChain P key s.iv (split s.message) = chainAnswer P key (.encrypt klen ivlen) s := by
  rw [split_message klen ivlen]
  rfl

theorem decChain_ctsplit (P : Platform) (key : Key) (klen ivlen : Nat) (s : State) :
    decChain P key s.iv (ctsplit s.message) = chainAnswer P key (.decrypt klen ivlen) s := by
  rw [ctsplit_message klen ivlen]
  rfl

theorem facadeResult_encrypt_error {P : Platform} {klen : Nat} {key : Key} {s : State} {calls : List CipherCall}
    {ce : CipherError} (hk : keyOperand s.key klen = some key)
    (h : chainAnswer P key (.encrypt klen 16) s = (calls, .error ce)) :
    facadeResult P (.encrypt klen 16) s = (calls, .error (.underlyingCipherFailure ce)) := by
  simp [facadeResult, facadeEncrypt, hk, ivOperand, encChain_split P key klen 16, h]

theorem facadeResult_encrypt_ok {P : Platform} {klen : Nat} {key : Key} {s : State} {calls : List CipherCall}
    {outs : List Block} (hk : keyOperand s.key klen = some key)
    (h : chainAnswer P key (.encrypt klen 16) s = (calls, .ok outs)) :
    facadeResult P (.encrypt klen 16) s = (calls, .ok (concat outs)) := by
  simp [facadeResult, facadeEncrypt, hk, ivOperand, encChain_split P key klen 16, h]

theorem facadeResult_decrypt_length {P : Platform} {klen : Nat} {key : Key} {s : State}
    (hk : keyOperand s.key klen = some key) (hlen : s.msgLen % 16 ≠ 0 ∨ s.msgLen < 16) :
    facadeResult P (.decrypt klen 16) s = ([], .error .invalidCiphertextLength) := by
  simp only [facadeResult, facadeDecrypt, hk, ivOperand, if_true, length_message]
  exact dif_pos hlen

theorem joinPlaintext_error {answer : List CipherCall × Except CipherError (List Block)} {calls : List CipherCall}
    {ce : CipherError} (h : ∀ blocks, answer.2 = .ok blocks → blocks ≠ []) (he : answer = (calls, .error ce)) :
    joinPlaintext answer h = (calls, .error (.underlyingCipherFailure ce)) := by
  subst he
  rfl

theorem joinPlaintext_ok {answer : List CipherCall × Except CipherError (List Block)} {calls : List CipherCall}
    {blocks : List Block} (h : ∀ blocks, answer.2 = .ok blocks → blocks ≠ []) (he : answer = (calls, .ok blocks))
    (hne : blocks ≠ []) : joinPlaintext answer h = (calls, join blocks hne) := by
  subst he
  rfl

theorem facadeResult_decrypt_error {P : Platform} {klen : Nat} {key : Key} {s : State} {calls : List CipherCall}
    {ce : CipherError} (hk : keyOperand s.key klen = some key) (hlen : ¬(s.msgLen % 16 ≠ 0 ∨ s.msgLen < 16))
    (h : chainAnswer P key (.decrypt klen 16) s = (calls, .error ce)) :
    facadeResult P (.decrypt klen 16) s = (calls, .error (.underlyingCipherFailure ce)) := by
  simp only [facadeResult, facadeDecrypt, hk, ivOperand, if_true, length_message, dif_neg hlen]
  exact joinPlaintext_error _ ((decChain_ctsplit P key klen 16 s).trans h)

theorem facadeResult_decrypt_ok {P : Platform} {klen : Nat} {key : Key} {s : State} {calls : List CipherCall}
    {outs : List Block} (hk : keyOperand s.key klen = some key) (hlen : ¬(s.msgLen % 16 ≠ 0 ∨ s.msgLen < 16))
    (h : chainAnswer P key (.decrypt klen 16) s = (calls, .ok outs)) (hne : outs ≠ []) :
    facadeResult P (.decrypt klen 16) s = (calls, join outs hne) := by
  simp only [facadeResult, facadeDecrypt, hk, ivOperand, if_true, length_message, dif_neg hlen]
  exact joinPlaintext_ok _ ((decChain_ctsplit P key klen 16 s).trans h) hne

/-- `JOIN` of blocks whose last one has bad padding (R112, R132). -/
theorem join_append_none {init : List Block} {last : Block} (hne : init ++ [last] ≠ [])
    (hpad : padLength last = none) : join (init ++ [last]) hne = .error .invalidPadding := by
  simp [join, unpad16, hpad]

/-- `JOIN` of blocks whose last one names a pad length (R112, R132). -/
theorem join_append_some {init : List Block} {last : Block} {n : Nat} (hne : init ++ [last] ≠ [])
    (hpad : padLength last = some n) :
    join (init ++ [last]) hne = .ok (concat init ++ last.toList.take (16 - n)) := by
  simp [join, unpad16, hpad]

/-- A failure before any request leaves what FAIL leaves. -/
theorem finish_error_nil (e : ErrorKind) (s : State) : finish ([], .error e) s = fail e.code e.cerr s := by
  simp [finish]

/-- From START the engine reaches the state that shows the big-step result `r`, after the steps of the table
(R198, R199). -/
def ReachesResult (P : Platform) (w : Word) (i : Instr) (s : State)
    (r : List CipherCall × Except ErrorKind (List Byte)) : Prop :=
  RunsOn P (engineSteps i r.1 r.2) (start w s) (finish r (start w s))

/-! ### The result an ENCRYPT leaves -/

theorem Issued.reachesResult_encrypt {P : Platform} {w : Word} {klen ivlen : Nat} {s : State}
    (h : Issued P w (.encrypt klen ivlen) s) (hv : ValidParameters klen ivlen) :
    ReachesResult P w (.encrypt klen ivlen) s (facadeResult P (.encrypt klen ivlen) s) := by
  obtain ⟨rfl, hkey⟩ := hv
  obtain ⟨key, hk⟩ := keyOperand_isSome (store := s.key) hkey
  have hbegun := h.runsOn_chainBegun_encrypt ⟨rfl, hkey⟩
  have hchain := h.chainEnds hk trivial
  rcases ha : chainAnswer P key (.encrypt klen 16) s with ⟨calls, ce | outs⟩ <;> rw [ha] at hchain
  · rw [facadeResult_encrypt_error hk ha, ReachesResult, engineSteps, Nat.add_comm]
    exact runsOn_add hbegun hchain
  · obtain ⟨chain, hchain⟩ := hchain
    have hlen := length_of_chainAnswer ha
    rw [facadeResult_encrypt_ok hk ha, ReachesResult, engineSteps, show calls.length + 3 = 2 + calls.length + 1 by omega]
    refine runsOn_add (runsOn_add hbegun hchain) (runsOn_one_of_execOn h.pending (nofun) h.decoded ?_)
    refine congrArg Host.Outcome.next (a₁ := commit _) ?_
    simp only [finish, publish, length_concat, hlen]
    rfl

/-! ### The result a DECRYPT leaves -/

/-- Bytes stored beyond the end of a store and zeroed again leave it as it was. -/
theorem Memory.writeBytes_zeroed {m : Memory} {a : Nat} (hwf : m.wf) (hm : m.Below a) (ys : List Byte) :
    (m.writeBytes a ys).writeBytes a (List.replicate ys.length 0x00) = m := by
  have hwf' := Memory.writeBytes_wf ys hwf a
  refine Memory.ext_read (Memory.writeBytes_wf _ hwf' a) hwf fun x => ?_
  rw [Memory.read_writeBytes _ hwf', Memory.read_writeBytes _ hwf, List.getElem?_replicate]
  split
  · rename_i hx
    have hzero : m.read x = 0 := Memory.read_of_below hm hx
    split
    · exact hzero.symm
    · rename_i hlen
      simp [List.getElem?_eq_none (Nat.not_lt.1 hlen)]
  · rfl

/-- `OBUF` with the blocks `outs` stored from its start on. -/
def storedBlocks (outs : List Block) : Memory := Memory.empty.writeBytes 0 (concat outs)

theorem storedBlocks_append (init : List Block) (last : Block) :
    storedBlocks (init ++ [last]) = (storedBlocks init).writeBlock (16 * init.length) last := by
  simp [storedBlocks, Memory.writeBytes_append, Memory.writeBlock]

theorem storedBlocks_wf (outs : List Block) : (storedBlocks outs).wf := Memory.writeBytes_wf _ Memory.empty_wf 0

theorem storedBlocks_below (outs : List Block) : (storedBlocks outs).Below (16 * outs.length) :=
  Memory.writeBytes_below _ (Memory.empty_below _) (by simp)

/-- The padding of the last block zeroed, what is left is the message (R196). -/
theorem storedBlocks_stripped (init : List Block) (last : Block) {n : Nat} (hn : n ≤ 16) :
    (storedBlocks (init ++ [last])).writeBytes (16 * (init.length + 1) - n) (List.replicate n 0x00) =
      Memory.empty.writeBytes 0 (concat init ++ last.toList.take (16 - n)) := by
  have hmsg : Memory.empty.writeBytes 0 (concat init ++ last.toList.take (16 - n)) =
      (storedBlocks init).writeBytes (16 * init.length) (last.toList.take (16 - n)) := by
    simp [Memory.writeBytes_append, storedBlocks]
  have hend : 16 * (init.length + 1) - n = 16 * init.length + (last.toList.take (16 - n)).length := by
    simp
    omega
  have hpad : (last.toList.drop (16 - n)).length = n := by
    simp
    omega
  have hbelow : ((storedBlocks init).writeBytes (16 * init.length) (last.toList.take (16 - n))).Below
      (16 * init.length + (last.toList.take (16 - n)).length) :=
    Memory.writeBytes_below _ (Memory.below_mono (storedBlocks_below init) (by omega)) le_rfl
  have hstrip := Memory.writeBytes_zeroed (Memory.writeBytes_wf _ (storedBlocks_wf init) _) hbelow
    (last.toList.drop (16 - n))
  rw [← Memory.writeBytes_append, List.take_append_drop, hpad] at hstrip
  rw [hmsg, storedBlocks_append, hend]
  exact hstrip

/-- The state in which a DECRYPT unpads: its requests `calls` made, its blocks `outs` stored. -/
def unpadding (klen ivlen : Nat) (w : Word) (calls : List CipherCall) (outs : List Block) (chain : Block)
    (s : State) : State :=
  chainDone (.decrypt klen ivlen) calls outs chain (chainBegun (.decrypt klen ivlen) w s)

section Unpadding
variable {P : Platform} {w : Word} {klen ivlen : Nat} {s : State} {calls : List CipherCall} {init : List Block}
  {last chain : Block}

/-- The last block stands at the end of the stored blocks (R196). -/
theorem lastBlock_unpadding (hlen : init.length + 1 = decryptBlocks s.msgLen) :
    lastBlock (unpadding klen ivlen w calls (init ++ [last]) chain s) = last := by
  show (storedBlocks (init ++ [last])).readBlock (16 * (decryptBlocks s.msgLen - 1)) = last
  rw [← hlen, Nat.add_sub_cancel, storedBlocks_append, Memory.readBlock_writeBlock (storedBlocks_wf init)]

theorem Issued.runsOn_unpadLast (h : Issued P w (.decrypt klen ivlen) s)
    (hlen : init.length + 1 = decryptBlocks s.msgLen) :
    RunsOn P 1 (unpadding klen ivlen w calls (init ++ [last]) chain s)
      (unpadLast (unpadding klen ivlen w calls (init ++ [last]) chain s)) := by
  have hpos : 1 ≤ decryptBlocks s.msgLen := by omega
  exact runsOn_one_of_execOn h.pending (nofun) h.decoded (decryptUnpad_of_guards hpos (blocksOf_le h.admitted))

/-- COMMIT of the stripped result publishes the unpadded message (R196, R197). -/
theorem commit_stripped (hlen : init.length + 1 = decryptBlocks s.msgLen) {n : Nat} (hn : n ≤ 16) :
    commit { unpadding klen ivlen w calls (init ++ [last]) chain s with
        obuf := (storedBlocks (init ++ [last])).writeBytes (16 * decryptBlocks s.msgLen - n) (List.replicate n 0x00)
        wlen := 16 * decryptBlocks s.msgLen - n
        phase := .commit } =
      finish (calls, .ok (concat init ++ last.toList.take (16 - n))) (start w s) := by
  have hwlen : (concat init ++ last.toList.take (16 - n)).length = 16 * decryptBlocks s.msgLen - n := by
    simp
    omega
  have hstrip := storedBlocks_stripped init last hn
  rw [hlen] at hstrip
  simp only [finish, publish, hwlen, ← hstrip]
  rfl

/-- From the last block on: UNPAD, and COMMIT where the padding is good (R196, R197). -/
theorem Issued.runsOn_unpad (h : Issued P w (.decrypt klen ivlen) s)
    (hlen : init.length + 1 = decryptBlocks s.msgLen) (hne : init ++ [last] ≠ []) :
    ∃ m, engineSteps (.decrypt klen ivlen) calls (join (init ++ [last]) hne) = 3 + calls.length + m ∧
      RunsOn P m (unpadding klen ivlen w calls (init ++ [last]) chain s)
        (finish (calls, join (init ++ [last]) hne) (start w s)) := by
  have hunpad := h.runsOn_unpadLast (calls := calls) (last := last) (chain := chain) hlen
  obtain ⟨hpad, he⟩ | ⟨n, hpad, he⟩ := unpadLast_cases (unpadding klen ivlen w calls (init ++ [last]) chain s) <;>
    rw [he] at hunpad <;> rw [lastBlock_unpadding hlen] at hpad
  · rw [join_append_none hne hpad]
    exact ⟨1, by simp only [engineSteps]; omega, hunpad⟩
  · obtain ⟨-, -, hn, -⟩ := padLength_eq_some.1 hpad
    rw [join_append_some hne hpad]
    refine ⟨1 + 1, by simp only [engineSteps]; omega, runsOn_add hunpad ?_⟩
    rw [← commit_stripped (klen := klen) (ivlen := ivlen) (chain := chain) hlen hn]
    exact runsOn_one_of_execOn h.pending (nofun) h.decoded rfl

end Unpadding

theorem Issued.reachesResult_decrypt {P : Platform} {w : Word} {klen ivlen : Nat} {s : State}
    (h : Issued P w (.decrypt klen ivlen) s) (hv : ValidParameters klen ivlen) :
    ReachesResult P w (.decrypt klen ivlen) s (facadeResult P (.decrypt klen ivlen) s) := by
  obtain ⟨rfl, hkey⟩ := hv
  obtain ⟨key, hk⟩ := keyOperand_isSome (store := s.key) hkey
  by_cases hlen : s.msgLen % 16 ≠ 0 ∨ s.msgLen < 16
  · rw [facadeResult_decrypt_length hk hlen, ReachesResult, finish_error_nil, engineSteps]
    exact h.runsOn_invalidLength ⟨rfl, hkey⟩ hlen
  · have hbegun := h.runsOn_chainBegun_decrypt ⟨rfl, hkey⟩ hlen
    have hchecked : LengthChecked (.decrypt klen 16) s.msgLen := show _ ∧ _ by omega
    have hchain := h.chainEnds hk hchecked
    rcases ha : chainAnswer P key (.decrypt klen 16) s with ⟨calls, ce | outs⟩ <;> rw [ha] at hchain
    · rw [facadeResult_decrypt_error hk hlen ha, ReachesResult, engineSteps, Nat.add_comm]
      exact runsOn_add hbegun hchain
    · obtain ⟨chain, hchain⟩ := hchain
      have hne : outs ≠ [] := List.ne_nil_of_length_pos (length_of_chainAnswer ha ▸ blocksOf_pos hchecked)
      obtain ⟨init, last, rfl⟩ := (List.eq_nil_or_concat' outs).resolve_left hne
      have hcount : init.length + 1 = decryptBlocks s.msgLen := by simpa [blocksOf] using length_of_chainAnswer ha
      obtain ⟨m, hm, hunpad⟩ := h.runsOn_unpad hcount hne
      rw [facadeResult_decrypt_ok hk hlen ha hne, ReachesResult, hm]
      exact runsOn_add (runsOn_add hbegun hchain) hunpad

/-! ### Whole commands -/

/-- A legal command within capacity reaches its big-step result. -/
theorem Issued.reachesResult {P : Platform} {w : Word} {i : Instr} {s : State} (h : Issued P w i s) :
    ReachesResult P w i s (facadeResult P i s) := by
  by_cases hv : ValidParameters i.klen i.ivlen
  · cases i with
    | encrypt klen ivlen => exact h.reachesResult_encrypt hv
    | decrypt klen ivlen => exact h.reachesResult_decrypt hv
  · rw [facadeResult_of_invalid hv, ReachesResult, finish_error_nil, engineSteps]
    exact h.runsOn_invalidParameters hv

/-- What a completed command shows: an idle engine with `DONE` set, and the code of its result (R197, R226). -/
structure Completed (code : ResultCode) (w : Word) (t : State) : Prop where
  phase : t.phase = .idle
  cmd : t.cmd = w
  status : t.status = .completed code

/-- The code of a big-step result (R199, R220). -/
def resultCode : Except ErrorKind (List Byte) → ResultCode
  | .ok _ => .ok
  | .error e => e.code

theorem completed_finish (r : List CipherCall × Except ErrorKind (List Byte)) (w : Word) (s : State) :
    Completed (resultCode r.2) w (finish r (start w s)) := by
  obtain ⟨calls, _ | _⟩ := r <;> exact ⟨rfl, rfl, rfl⟩

/-- A command word written to an engine that is not busy, as the last event on its way, starts it (R63, R190). -/
theorem runs_write_cmd {s : State} {w : Word} (hb : s.status.busy = false)
    (hp : s.pending = [.access (.writeReg 0 w)]) : Runs 1 s (start w { s with pending := [] }) := by
  rw [runs_one, step_of_access hp]
  simp [performAccess, hostWriteReg, hb]

/-- Settles O38: the write starts the word, and DECODE fails it or the command reaches its big-step result. -/
theorem everyWordCompletesWithItsCode : Obligations.EveryWordCompletesWithItsCode := by
  unfold Obligations.EveryWordCompletesWithItsCode
  intro s w hb hp
  have hwrite := runs_write_cmd hb hp
  cases hd : decode w with
  | error e =>
    have hrun := runs_iff_runsOn.2 (runsOn_illegal Config.platform (s := { s with pending := [] }) rfl hd)
    exact ⟨2, _, runs_add hwrite hrun, rfl, rfl, rfl, rfl, fun _ _ => ⟨rfl, rfl, rfl, rfl⟩, nofun, nofun⟩
  | ok i =>
    by_cases ha : Admitted Config.platform.bufcap i s.msgLen
    · have hissued : Issued Config.platform w i { s with pending := [] } := ⟨rfl, hd, ha⟩
      have hrun := runs_iff_runsOn.2 hissued.reachesResult
      have hdone := completed_finish (facadeResult Config.platform i { s with pending := [] }) w { s with pending := [] }
      have hsame : facadeResult Config.platform i { s with pending := [] } = facadeResult Config.platform i s := by
        cases i <;> rfl
      refine ⟨_, _, runs_add hwrite hrun, hdone.phase, hdone.cmd, by rw [hdone.status]; rfl, by rw [hdone.status]; rfl,
        nofun, ?_, ?_⟩
      · rintro _ ⟨⟩ hna
        exact absurd ha hna
      · rintro _ ⟨⟩ -
        rw [hdone.status, hsame]
        rcases (facadeResult Config.platform i s).2 with _ | _ <;> rfl
    · have hrun := runs_iff_runsOn.2 (runsOn_beyondCapacity (s := { s with pending := [] }) rfl hd ha)
      refine ⟨2, _, runs_add hwrite hrun, rfl, rfl, rfl, rfl, nofun, fun _ _ _ => ⟨rfl, rfl, rfl, rfl⟩, ?_⟩
      rintro _ ⟨⟩ ha'
      exact absurd ha' ha

end Sys2Proof.Machine

/-! PROOFS. The padding codec (spec/40_padding_codec.md R110 to R115): what `UNPAD` accepts, `UNPAD16` as `UNPAD` of one
block, and the inverse law of `PAD` and `UNPAD16`. -/

namespace Sys2Proof.Machine

/-! ### `UNPAD` of any length -/

/-- The tests of R111, all passed. -/
theorem unpad_eq_ok {buf out : List Byte} :
    unpad buf = .ok out ↔
      ∃ last, buf.getLast? = some last ∧ buf.length % 16 = 0 ∧ 0 < last.toNat ∧ last.toNat ≤ buf.length ∧
        (∀ b ∈ buf.drop (buf.length - last.toNat), b = last) ∧ buf.take (buf.length - last.toNat) = out := by
  unfold unpad
  cases buf.getLast? with
  | none => simp
  | some last =>
    simp only [Option.some.injEq, exists_eq_left']
    split_ifs with hmod hrange hbytes
    · simp [hmod]
    · refine iff_of_false nofun ?_
      omega
    · obtain ⟨b, hb, hne⟩ := hbytes
      exact iff_of_false nofun fun ⟨_, _, _, hall, _⟩ => hne (hall b hb)
    · push Not at hmod hrange hbytes
      obtain ⟨hpos, hle⟩ := hrange
      simp only [Except.ok.injEq]
      exact ⟨fun h => ⟨hmod, Nat.pos_of_ne_zero hpos, hle, hbytes, h⟩, fun ⟨_, _, _, _, h⟩ => h⟩

/-- The only error of `UNPAD` (R111). -/
theorem unpad_error {buf : List Byte} {e : ErrorKind} (h : unpad buf = .error e) : e = .invalidPadding := by
  unfold unpad at h
  cases hlast : buf.getLast? with
  | none => simp_all
  | some last =>
    simp only [hlast] at h
    split_ifs at h <;> exact (Except.error.inj h).symm

/-- The tail that `UNPAD` has compared is `n` bytes of value `n`, `n` the last byte. -/
theorem eq_append_padding_of_unpad {buf out : List Byte} (h : unpad buf = .ok out) :
    ∃ n, 0 < n ∧ n < 256 ∧ buf = out ++ List.replicate n (BitVec.ofNat 8 n) := by
  obtain ⟨last, -, -, hpos, hle, hall, rfl⟩ := unpad_eq_ok.1 h
  have htail : buf.drop (buf.length - last.toNat) = List.replicate last.toNat last :=
    List.eq_replicate_iff.2 ⟨by rw [List.length_drop]; omega, hall⟩
  refine ⟨last.toNat, hpos, last.isLt, ?_⟩
  rw [BitVec.ofNat_toNat, BitVec.setWidth_eq, ← htail, List.take_append_drop]

/-- Bytes followed by `n` bytes of value `n`, a multiple of 16 in all, unpad to those bytes. -/
theorem unpad_append_padding {out : List Byte} {n : Nat} (hpos : 0 < n) (hn : n < 256)
    (hmod : (out ++ List.replicate n (BitVec.ofNat 8 n)).length % 16 = 0) :
    unpad (out ++ List.replicate n (BitVec.ofNat 8 n)) = .ok out := by
  have hvalue : (BitVec.ofNat 8 n).toNat = n := by rw [BitVec.toNat_ofNat]; exact Nat.mod_eq_of_lt hn
  have hlength : (out ++ List.replicate n (BitVec.ofNat 8 n)).length - n = out.length := by simp
  refine unpad_eq_ok.2 ⟨BitVec.ofNat 8 n, ?_, hmod, ?_⟩
  · simp [List.getLast?_append, List.getLast?_replicate, Nat.ne_of_gt hpos]
  · rw [hvalue, hlength, List.drop_left, List.take_left]
    exact ⟨hpos, by simp, fun b hb => List.eq_of_mem_replicate hb, rfl⟩

/-- Settles O47: the bytes `UNPAD` strips are exactly the trailing padding. -/
theorem unpadAcceptsExactlyTrailingPadding : Obligations.UnpadAcceptsExactlyTrailingPadding := by
  unfold Obligations.UnpadAcceptsExactlyTrailingPadding
  refine ⟨fun buf out => ⟨fun h => ?_, ?_⟩, fun buf e => unpad_error⟩
  · obtain ⟨_, -, hmod, -⟩ := unpad_eq_ok.1 h
    exact ⟨hmod, eq_append_padding_of_unpad h⟩
  · rintro ⟨hmod, n, hpos, hn, rfl⟩
    exact unpad_append_padding hpos hn hmod

/-! ### `UNPAD16`, on one block -/

theorem getLast?_block (b : Block) : b.toList.getLast? = some b[15] := by
  simp [List.getLast?_eq_getElem?]

/-- The lanes R115 compares at once are the bytes from index `k` on. -/
theorem forall_mem_drop_block {b : Block} {k : Nat} {v : Byte} :
    (∀ x ∈ b.toList.drop k, x = v) ↔ ∀ j : Fin 16, k ≤ j.val → b[j] = v := by
  constructor
  · intro h j hj
    refine h _ (List.mem_drop_iff_getElem.2 ⟨j.val - k, ?_, ?_⟩)
    · have := j.isLt
      rw [Vector.length_toList]; omega
    · simp [Nat.add_sub_cancel' hj]
  · intro h x hx
    obtain ⟨i, hi, rfl⟩ := List.mem_drop_iff_getElem.1 hx
    rw [Vector.length_toList] at hi
    simpa using h ⟨k + i, by omega⟩ (Nat.le_add_right k i)

/-- `UNPAD` of one block: the length tests of R111 pass, and `n > len(buf)` is `n > 16`. -/
theorem unpad_block_eq_ok {last : Block} {out : List Byte} :
    unpad last.toList = .ok out ↔ ∃ n, padLength last = some n ∧ last.toList.take (16 - n) = out := by
  simp only [unpad_eq_ok, getLast?_block, Option.some.injEq, exists_eq_left', Vector.length_toList,
    forall_mem_drop_block, padLength_eq_some, and_assoc]
  simp [Nat.one_le_iff_ne_zero, Nat.pos_iff_ne_zero]

theorem unpad16_eq_unpad (last : Block) : unpad16 last = unpad last.toList := by
  unfold unpad16
  cases hpad : padLength last with
  | some n => exact (unpad_block_eq_ok.2 ⟨n, hpad, rfl⟩).symm
  | none =>
    cases h : unpad last.toList with
    | ok out =>
      obtain ⟨n, hn, -⟩ := unpad_block_eq_ok.1 h
      rw [hpad] at hn
      cases hn
    | error e => rw [unpad_error h]

/-- Settles O48: the lane tests of R112 are the byte tests of R111 on sixteen bytes. -/
theorem unpadOfOneBlockIsTheGeneralUnpad : Obligations.UnpadOfOneBlockIsTheGeneralUnpad := by
  unfold Obligations.UnpadOfOneBlockIsTheGeneralUnpad
  intro last
  refine ⟨unpad16_eq_unpad last, fun h => ?_⟩
  have hpad : padLength last = none := padLength_eq_none.2 (.inr (.inl h))
  rw [unpad16, hpad]

/-! ### The inverse law -/

/-- `PAD` appends `16 - len` bytes of value `16 - len` (R110, R114). -/
theorem toList_pad (chunk : List Byte) (h : chunk.length < 16) :
    (pad chunk h).toList =
      chunk ++ List.replicate (16 - chunk.length) (BitVec.ofNat 8 (16 - chunk.length)) := by
  have hsize : padSize chunk.length = 16 - chunk.length := by rw [padSize, Nat.mod_eq_of_lt h]
  apply List.ext_getElem
  · simp only [Vector.length_toList, List.length_append, List.length_replicate]; omega
  · intro j hj _
    rw [Vector.length_toList] at hj
    by_cases hlt : j < chunk.length
    · simp [List.getElem_append_left, hlt]
    · simp [List.getElem_append_right, Nat.le_of_not_lt hlt, hsize]

theorem unpad16_pad (chunk : List Byte) (h : chunk.length < 16) : unpad16 (pad chunk h) = .ok chunk := by
  rw [unpad16_eq_unpad, toList_pad]
  apply unpad_append_padding
  · omega
  · omega
  · simp only [List.length_append, List.length_replicate]; omega

/-- The padding `UNPAD16` strips has the length of what `PAD` appends, since the block has sixteen bytes. -/
theorem pad_of_unpad16 {last : Block} {chunk : List Byte} (h : unpad16 last = .ok chunk) :
    ∃ h : chunk.length < 16, pad chunk h = last := by
  rw [unpad16_eq_unpad] at h
  obtain ⟨n, hpos, -, hlast⟩ := eq_append_padding_of_unpad h
  have hlength : 16 = chunk.length + n := by simpa using congrArg List.length hlast
  refine ⟨by omega, ?_⟩
  have hn : 16 - chunk.length = n := by omega
  rw [← Vector.toList_inj, toList_pad, hlast, hn]

/-- Settles O49: what `PAD` appends is the padding `UNPAD16` accepts, and a block holds no other. -/
theorem unpadInvertsPad : Obligations.UnpadInvertsPad := by
  unfold Obligations.UnpadInvertsPad
  exact fun chunk _ => ⟨unpad16_pad chunk, pad_of_unpad16⟩

end Sys2Proof.Machine

/-! PROOFS. The block segmenter (spec/41_block_segmenter.md R130 to R135): `CONCAT` undoes the exact split, `JOIN` undoes
the padded one, and the machine's block fetch is the padded split of the message. -/

namespace Sys2Proof.Machine

/-! ### The exact split -/

/-- A full chunk is sixteen bytes of the buffer (R130, R133). -/
theorem toList_fullBlock {buf : List Byte} {k : Nat} (hk : 16 * k + 16 ≤ buf.length) :
    (fullBlock buf k).toList = (buf.drop (16 * k)).take 16 := by
  apply List.ext_getElem
  · simp only [Vector.length_toList, List.length_take, List.length_drop]; omega
  · intro j hj _
    rw [Vector.length_toList] at hj
    have hin : 16 * k + j < buf.length := by omega
    simp [hin]

/-- The first `n` full chunks, concatenated, are the buffer up to `16*n`. -/
theorem concat_map_fullBlock {buf : List Byte} {n : Nat} (hn : 16 * n ≤ buf.length) :
    concat ((List.range n).map (fullBlock buf)) = buf.take (16 * n) := by
  induction n with
  | zero => simp
  | succ n ih =>
    have hnext : 16 * n + 16 ≤ buf.length := by omega
    rw [List.range_succ, List.map_append, concat_append, ih (by omega), List.map_singleton, concat_cons, concat_nil,
      List.append_nil, toList_fullBlock hnext, Nat.mul_succ, List.take_add]

theorem concat_ctsplit (buf : List Byte) : concat (ctsplit buf) = buf.take (16 * (buf.length / 16)) :=
  concat_map_fullBlock (Nat.mul_div_le _ _)

theorem concat_ctsplit_of_dvd {buf : List Byte} (h : 16 ∣ buf.length) : concat (ctsplit buf) = buf := by
  rw [concat_ctsplit, Nat.mul_div_cancel' h, List.take_length]

/-- All blocks have sixteen bytes, so their bytes in a row determine them. -/
theorem concat_injective : Function.Injective concat := by
  intro bs
  induction bs with
  | nil =>
    intro cs h
    have hlength := congrArg List.length h
    exact (List.eq_nil_of_length_eq_zero (by simpa using hlength.symm)).symm
  | cons b bs ih =>
    intro cs h
    cases cs with
    | nil => simpa using congrArg List.length h
    | cons c cs =>
      rw [concat_cons, concat_cons] at h
      obtain ⟨hhead, htail⟩ := List.append_inj h (by rw [Vector.length_toList, Vector.length_toList])
      rw [Vector.toList_inj.1 hhead, ih htail]

theorem ctsplit_concat (blocks : List Block) : ctsplit (concat blocks) = blocks :=
  concat_injective (concat_ctsplit_of_dvd ⟨_, length_concat blocks⟩)

/-! ### The padded split -/

theorem split_eq_ctsplit_append (buf : List Byte) :
    split buf = ctsplit buf ++ [pad (finalChunk buf) (finalChunk_short buf)] := rfl

@[simp] theorem length_split (buf : List Byte) : (split buf).length = buf.length / 16 + 1 := by simp [split]

theorem join_append_singleton (init : List Block) (last : Block) (h : init ++ [last] ≠ []) :
    join (init ++ [last]) h = (unpad16 last).map (concat init ++ ·) := by
  simp only [join, List.getLast_append_singleton, List.dropLast_concat]
  cases unpad16 last <;> rfl

/-- `JOIN` strips the padding of the final chunk and puts that chunk after the full ones. -/
theorem join_split (buf : List Byte) (h : split buf ≠ []) : join (split buf) h = .ok buf := by
  calc join (split buf) h
      = (unpad16 (pad (finalChunk buf) (finalChunk_short buf))).map (concat (ctsplit buf) ++ ·) :=
        join_append_singleton _ _ h
    _ = .ok (buf.take (16 * (buf.length / 16)) ++ finalChunk buf) := by rw [unpad16_pad, concat_ctsplit]; rfl
    _ = .ok buf := by rw [finalChunk, List.take_append_drop]

theorem split_ne_nil (buf : List Byte) : split buf ≠ [] := List.concat_ne_nil _ _

/-- `JOIN` is a left inverse of `SPLIT`. -/
theorem split_injective : Function.Injective split := by
  intro buf buf' h
  have hjoin : join (split buf) (split_ne_nil buf) = join (split buf') (split_ne_nil buf') := by congr 1
  rw [join_split, join_split] at hjoin
  exact Except.ok.inj hjoin

/-- Settles O50: the laws above, each for its pair of functions. -/
theorem segmenterLaws : Obligations.SegmenterLaws := by
  unfold Obligations.SegmenterLaws
  refine ⟨fun buf => ?_, join_split, ctsplit_concat, fun buf hmod => ?_, fun _ _ h => split_injective h⟩
  · rw [length_concat, length_split]
  · exact concat_ctsplit_of_dvd (Nat.dvd_of_mod_eq_zero hmod)

/-! ### The block fetch of the machine -/

/-- Settles O51: the message splits into the blocks an ENCRYPT chains over, which are the fetched ones in order. -/
theorem plaintextFetchIsSplit : Obligations.PlaintextFetchIsSplit := by
  unfold Obligations.PlaintextFetchIsSplit
  intro s
  have hlength : s.message.length = s.ilen.toNat := length_message s
  refine ⟨by rw [length_split, hlength], fun i hi => ?_⟩
  have hi : i < blocksOf (.encrypt 0 0) s.msgLen := hi
  rw [split_message 0 0, commandBlocks, List.getElem?_map, List.getElem?_range' hi]
  simp [blockAt]

end Sys2Proof.Machine

/-! PROOFS. The chain engine (spec/42_chain_engine.md R150 to R160): the laws of XOR, the closed forms of both chains,
what a wrong IV changes, where a failing chain stops, and the inverse law. -/

namespace Sys2Proof.Machine

/-! ### XOR -/

theorem getLsbD_xorBlock (a b : Block) (j : Fin 16) (t : Nat) :
    (xorBlock a b)[j].getLsbD t = (a[j].getLsbD t != b[j].getLsbD t) := by
  rw [Fin.getElem_fin, getElem_xorBlock, BitVec.getLsbD_xor]
  rfl

theorem xorBlock_self (a : Block) : xorBlock a a = Vector.replicate 16 0x00 := by
  ext1 j hj
  simp

theorem xorBlock_zero (a : Block) : xorBlock a (Vector.replicate 16 0x00) = a := by
  ext1 j hj
  simp

theorem xorBlock_comm (a b : Block) : xorBlock a b = xorBlock b a := by
  ext1 j hj
  simp [BitVec.xor_comm]

theorem xorBlock_assoc (a b c : Block) : xorBlock (xorBlock a b) c = xorBlock a (xorBlock b c) := by
  ext1 j hj
  simp [BitVec.xor_assoc]

theorem xorBlock_xorBlock_cancel (a b : Block) : xorBlock (xorBlock a b) b = a := by
  rw [xorBlock_assoc, xorBlock_self, xorBlock_zero]

/-- Settles O46: the laws above. -/
theorem xorOfBlocksIsBytewise : Obligations.XorOfBlocksIsBytewise := by
  unfold Obligations.XorOfBlocksIsBytewise
  exact fun a b c => ⟨getLsbD_xorBlock a b, xorBlock_self a, xorBlock_zero a, xorBlock_xorBlock_cancel a b,
    xorBlock_comm a b, xorBlock_assoc a b c⟩

/-! ### A step that succeeds -/

/-- The next state of the encrypt chain is the ciphertext block just produced (R154). -/
theorem encStep_eq_ok {P : Platform} {key : Key} {state b e next : Block} :
    (encStep P key state b).2 = .ok e next ↔ P.cipherEnc key (xorBlock b state) = .ok e ∧ next = e := by
  obtain ⟨e', hcipher, hstep⟩ | ⟨ce, hcipher, hstep⟩ := encStep_cases P key state b
  · rw [hstep, hcipher, ChainStep.ok.injEq, CipherResponse.ok.injEq]
    exact and_congr_right fun he => by rw [he, eq_comm]
  · simp [hstep, hcipher]

/-- The next state of the decrypt chain is the raw ciphertext block just consumed (R155). -/
theorem decStep_eq_ok {P : Platform} {key : Key} {state c p next : Block} :
    (decStep P key state c).2 = .ok p next ↔
      (∃ d, P.cipherDec key c = .ok d ∧ p = xorBlock d state) ∧ next = c := by
  obtain ⟨d, hcipher, hstep⟩ | ⟨ce, hcipher, hstep⟩ := decStep_cases P key state c
  · simp [hstep, hcipher, eq_comm]
  · simp [hstep, hcipher]

/-! ### The closed form of a chain that succeeds -/

theorem runChain_cons_eq_ok {step : Block → Block → CipherCall × ChainStep} {state b out : Block}
    {rest outs : List Block} :
    (runChain step state (b :: rest)).2 = .ok (out :: outs) ↔
      ∃ next, (step state b).2 = .ok out next ∧ (runChain step next rest).2 = .ok outs := by
  obtain ⟨c, ce, hstep, hrun⟩ | ⟨c, out', next, hstep, hrun⟩ :=
    runChain_cons (step := step) (state := state) (b := b) rest
  · simp [hstep, hrun]
  · simp only [hrun, hstep, ChainStep.ok.injEq, and_assoc, exists_and_left, exists_eq_left']
    cases (runChain step next rest).2 <;> simp [Except.map]

/-- The chaining state before block `i`: the IV, or the ciphertext block before it (R158). -/
def stateBefore (iv : Block) (ciphertext : List Block) (i : Nat) : Block := ((iv :: ciphertext)[i]?).getD iv

@[simp] theorem stateBefore_zero (iv : Block) (ciphertext : List Block) : stateBefore iv ciphertext 0 = iv := rfl

theorem stateBefore_succ {iv c : Block} {ciphertext : List Block} {i : Nat} (hi : i ≤ ciphertext.length) :
    stateBefore iv (c :: ciphertext) (i + 1) = stateBefore c ciphertext i := by
  have hlt : i < (c :: ciphertext).length := Nat.lt_succ_of_le hi
  simp only [stateBefore, List.getElem?_cons_succ, List.getElem?_eq_getElem hlt, Option.getD_some]

/-- What a chain does, in closed form: `Succeeds` relates the state, the input and the output of a step that answers
`Ok`, and `cipherSide` picks the ciphertext block, the next state, out of the input and the output. -/
theorem runChain_eq_ok {step : Block → Block → CipherCall × ChainStep} {Succeeds : Block → Block → Block → Prop}
    {cipherSide : Block × Block → Block}
    (hstep : ∀ state b out next,
      (step state b).2 = .ok out next ↔ Succeeds state b out ∧ next = cipherSide (b, out))
    (state : Block) (bs outs : List Block) :
    (runChain step state bs).2 = .ok outs ↔
      outs.length = bs.length ∧
      ∀ (i : Nat) (b out : Block), bs[i]? = some b → outs[i]? = some out →
        Succeeds (stateBefore state ((bs.zip outs).map cipherSide) i) b out := by
  induction bs generalizing state outs with
  | nil => cases outs <;> simp [runChain]
  | cons b bs ih =>
    cases outs with
    | nil =>
      refine iff_of_false (fun h => ?_) (by simp)
      simpa using runChain_ok_length h
    | cons out outs =>
      simp only [runChain_cons_eq_ok, hstep, and_assoc, exists_eq_left, exists_and_left, ih, List.length_cons,
        Nat.succ_inj]
      rw [and_left_comm]
      refine and_congr_right fun hlength => ?_
      have hstate {i : Nat} (hi : i < bs.length) := stateBefore_succ (iv := state) (c := cipherSide (b, out))
        (ciphertext := (bs.zip outs).map cipherSide) (i := i) (by rw [List.length_map, List.length_zip]; omega)
      constructor
      · rintro ⟨hfirst, hrest⟩ (_ | i) b' out' hb hout
        · cases hb; cases hout; exact hfirst
        · rw [List.zip_cons_cons, List.map_cons, hstate (List.getElem?_eq_some_iff.1 (List.getElem?_cons_succ ▸ hb)).1]
          exact hrest i b' out' hb hout
      · intro h
        refine ⟨h 0 b out rfl rfl, fun i b' out' hb hout => ?_⟩
        rw [← hstate (List.getElem?_eq_some_iff.1 hb).1]
        exact h (i + 1) b' out' hb hout

theorem encChain_eq_ok {P : Platform} {key : Key} {iv : Block} {bs es : List Block} :
    (encChain P key iv bs).2 = .ok es ↔
      es.length = bs.length ∧
      ∀ (i : Nat) (b e : Block), bs[i]? = some b → es[i]? = some e →
        P.cipherEnc key (xorBlock b (stateBefore iv es i)) = .ok e := by
  rw [encChain, runChain_eq_ok (cipherSide := Prod.snd) fun _ _ _ _ => encStep_eq_ok]
  refine and_congr_right fun hlength => ?_
  rw [List.map_snd_zip hlength.le]

theorem decChain_eq_ok {P : Platform} {key : Key} {iv : Block} {cs ps : List Block} :
    (decChain P key iv cs).2 = .ok ps ↔
      ps.length = cs.length ∧
      ∀ (i : Nat) (c p : Block), cs[i]? = some c → ps[i]? = some p →
        ∃ d, P.cipherDec key c = .ok d ∧ p = xorBlock d (stateBefore iv cs i) := by
  rw [decChain, runChain_eq_ok (cipherSide := Prod.fst) fun _ _ _ _ => decStep_eq_ok]
  refine and_congr_right fun hlength => ?_
  rw [List.map_fst_zip hlength.ge]

/-- Settles O52: the closed form with the ciphertext blocks the chain puts out (R156). -/
theorem encryptChainIsTheRecurrence : Obligations.EncryptChainIsTheRecurrence := by
  unfold Obligations.EncryptChainIsTheRecurrence
  exact fun _ _ _ _ _ => encChain_eq_ok

/-- Settles O53: the closed form with the ciphertext blocks the chain takes in (R157). -/
theorem decryptChainIsTheRecurrence : Obligations.DecryptChainIsTheRecurrence := by
  unfold Obligations.DecryptChainIsTheRecurrence
  exact fun _ _ _ _ _ => decChain_eq_ok

/-! ### The inverse law -/

/-- Settles O56: both chains pass through the same states, and the second XOR with a state undoes the first (R160). -/
theorem decryptChainInvertsEncryptChain : Obligations.DecryptChainInvertsEncryptChain := by
  unfold Obligations.DecryptChainInvertsEncryptChain
  intro P key iv bs es hinverse henc
  obtain ⟨hlength, hblocks⟩ := encChain_eq_ok.1 henc
  refine decChain_eq_ok.2 ⟨hlength.symm, fun i e b he hb => ?_⟩
  have hdec := hinverse key _ e (hblocks i b e hb he)
  exact ⟨_, hdec, (xorBlock_xorBlock_cancel b _).symm⟩

/-! ### A wrong IV -/

/-- The first request of a decrypt chain does not depend on the IV (R155). -/
theorem decChain_cons_err {P : Platform} {key : Key} {c : Block} {ce : CipherError}
    (h : P.cipherDec key c = .err ce) (iv : Block) (cs : List Block) :
    decChain P key iv (c :: cs) = ([⟨.dec, key, c, .err ce⟩], .error ce) := by
  simp [decChain, runChain, decStep, h]

/-- A decrypt chain leaves the IV behind with its first block: the rest goes from the ciphertext block `c` (R155). -/
theorem decChain_cons_ok {P : Platform} {key : Key} {c d : Block} (h : P.cipherDec key c = .ok d) (iv : Block)
    (cs : List Block) :
    decChain P key iv (c :: cs) =
      (⟨.dec, key, c, .ok d⟩ :: (decChain P key c cs).1, (decChain P key c cs).2.map (xorBlock d iv :: ·)) := by
  rcases hrest : runChain (decStep P key) c cs with ⟨calls, _ | _⟩ <;>
    simp [decChain, runChain, decStep, h, hrest, Except.map]

/-- Settles O54: the two chains part at most at the first block's XOR. -/
theorem wrongIvChangesOnlyTheFirstBlock : Obligations.WrongIvChangesOnlyTheFirstBlock := by
  unfold Obligations.WrongIvChangesOnlyTheFirstBlock
  intro P key iv iv' cs
  cases cs with
  | nil => exact ⟨rfl, fun _ h => h, fun ps h => ⟨ps, h, rfl⟩⟩
  | cons c cs =>
    cases hcipher : P.cipherDec key c with
    | err ce => simp [decChain_cons_err hcipher]
    | ok d =>
      rw [decChain_cons_ok hcipher, decChain_cons_ok hcipher]
      cases (decChain P key c cs).2 with
      | error ce => simp [Except.map]
      | ok ps => simp [Except.map]

/-! ### A chain that fails -/

/-- The answer of the capability on which a chain step answers as it does (R154, R155). -/
def ChainStep.From : ChainStep → CipherResponse → Prop
  | .ok _ _, response => ∃ out, response = .ok out
  | .err ce, response => response = .err ce

/-- Every step puts the answer it acts on into its record (R152). -/
def RecordsItsAnswer (step : Block → Block → CipherCall × ChainStep) : Prop :=
  ∀ state b, (step state b).2.From (step state b).1.result

theorem encStep_recordsItsAnswer (P : Platform) (key : Key) : RecordsItsAnswer (encStep P key) := by
  intro state b
  obtain ⟨e, -, hstep⟩ | ⟨ce, -, hstep⟩ := encStep_cases P key state b <;> simp [hstep, ChainStep.From]

theorem decStep_recordsItsAnswer (P : Platform) (key : Key) : RecordsItsAnswer (decStep P key) := by
  intro state c
  obtain ⟨d, -, hstep⟩ | ⟨ce, -, hstep⟩ := decStep_cases P key state c <;> simp [hstep, ChainStep.From]

/-- The requests of a chain that fails: those that succeeded, then the failing one (R159). -/
theorem calls_of_runChain_error {step : Block → Block → CipherCall × ChainStep} (hstep : RecordsItsAnswer step)
    {state : Block} {bs : List Block} {calls : List CipherCall} {ce : CipherError}
    (h : runChain step state bs = (calls, .error ce)) :
    ∃ done last, calls = done ++ [last] ∧ done.length < bs.length ∧
      (∀ c ∈ done, ∃ out, c.result = .ok out) ∧ last.result = .err ce := by
  induction bs generalizing state calls with
  | nil => cases h
  | cons b bs ih =>
    have hrecord := hstep state b
    obtain ⟨c, ce', hfail, hrun⟩ | ⟨c, out, next, hok, hrun⟩ :=
      runChain_cons (step := step) (state := state) (b := b) bs
    · rw [hfail] at hrecord
      cases hrun.symm.trans h
      exact ⟨[], c, rfl, by simp, by simp, hrecord⟩
    · rw [hok] at hrecord
      rcases hrest : runChain step next bs with ⟨calls', ce' | outs⟩ <;> rw [hrun, hrest] at h <;> cases h
      obtain ⟨done, last, rfl, hlength, hdone, hlast⟩ := ih hrest
      exact ⟨c :: done, last, rfl, Nat.succ_lt_succ hlength, List.forall_mem_cons.2 ⟨hrecord, hdone⟩, hlast⟩

/-- Settles O55: the failing request stands after those that succeeded. -/
theorem chainsStopAtTheFirstFailure : Obligations.ChainsStopAtTheFirstFailure := by
  unfold Obligations.ChainsStopAtTheFirstFailure
  intro P key iv bs calls ce h
  obtain ⟨done, last, rfl, hlength, hdone, hlast⟩ :=
    h.elim (calls_of_runChain_error (encStep_recordsItsAnswer P key))
      (calls_of_runChain_error (decStep_recordsItsAnswer P key))
  refine ⟨done.length, hlength, List.length_append, fun j c hj hc => ?_, fun c hc => ?_⟩
  · rw [List.getElem?_append_left hj] at hc
    exact hdone c (List.mem_of_getElem? hc)
  · rw [List.getElem?_concat_length] at hc
    cases hc
    exact hlast

end Sys2Proof.Machine

/-! PROOFS. The facade functions (spec/43_mode_facade.md R181, R182): which applications of the capability each of them
makes (R208), and the round trip (R203). -/

namespace Sys2Proof.Machine

/-! ### The requests of a chain that succeeds -/

/-- The requests of a chain that succeeds, in closed form: one for each block, the one the chain step makes on it in the
state before it. `cipherSide` picks the ciphertext block, the next state, out of a step's input and output. -/
theorem calls_of_runChain_ok {step : Block → Block → CipherCall × ChainStep} {cipherSide : Block × Block → Block}
    (hnext : ∀ state b out next, (step state b).2 = .ok out next → next = cipherSide (b, out))
    {state : Block} {bs outs : List Block} {calls : List CipherCall}
    (h : runChain step state bs = (calls, .ok outs)) :
    calls.length = bs.length ∧
    ∀ (i : Nat) (c : CipherCall), calls[i]? = some c →
      ∃ b, bs[i]? = some b ∧ c = (step (stateBefore state ((bs.zip outs).map cipherSide) i) b).1 := by
  induction bs generalizing state calls outs with
  | nil => cases h; exact ⟨rfl, nofun⟩
  | cons b bs ih =>
    obtain ⟨c, ce, -, hrun⟩ | ⟨c, out, next, hok, hrun⟩ := runChain_cons (step := step) (state := state) (b := b) bs
    · cases hrun.symm.trans h
    · rcases hrest : runChain step next bs with ⟨calls', ce | outs'⟩ <;> rw [hrun, hrest] at h <;> cases h
      obtain ⟨hlength, hcalls⟩ := ih hrest
      refine ⟨congrArg (· + 1) hlength, ?_⟩
      rintro (_ | i) c' hc
      · cases hc
        exact ⟨b, rfl, by simp [hok]⟩
      · obtain ⟨b', hb', rfl⟩ := hcalls i c' hc
        have hle : i ≤ ((bs.zip outs').map cipherSide).length := by
          have hi := (List.getElem?_eq_some_iff.1 hb').1
          have houts := runChain_ok_length (congrArg Prod.snd hrest)
          rw [List.length_map, List.length_zip]
          omega
        refine ⟨b', hb', ?_⟩
        rw [List.zip_cons_cons, List.map_cons, stateBefore_succ hle, hnext state b out next (by rw [hok])]

/-- The requests of an encrypt chain that succeeds (R154, R156). -/
theorem calls_of_encChain_ok {P : Platform} {key : Key} {iv : Block} {bs es : List Block} {calls : List CipherCall}
    (h : encChain P key iv bs = (calls, .ok es)) :
    calls.length = bs.length ∧
    ∀ (i : Nat) (c : CipherCall), calls[i]? = some c →
      ∃ b, bs[i]? = some b ∧ c = (encStep P key (stateBefore iv es i) b).1 := by
  have hcalls := calls_of_runChain_ok (cipherSide := Prod.snd) (fun _ _ _ _ hok => (encStep_eq_ok.1 hok).2) h
  rwa [List.map_snd_zip (runChain_ok_length (congrArg Prod.snd h)).le] at hcalls

/-- The requests of a decrypt chain that succeeds (R155, R157). -/
theorem calls_of_decChain_ok {P : Platform} {key : Key} {iv : Block} {cs ps : List Block} {calls : List CipherCall}
    (h : decChain P key iv cs = (calls, .ok ps)) :
    calls.length = cs.length ∧
    ∀ (i : Nat) (c : CipherCall), calls[i]? = some c →
      ∃ b, cs[i]? = some b ∧ c = (decStep P key (stateBefore iv cs i) b).1 := by
  have hcalls := calls_of_runChain_ok (cipherSide := Prod.fst) (fun _ _ _ _ hok => (decStep_eq_ok.1 hok).2) h
  rwa [List.map_fst_zip (runChain_ok_length (congrArg Prod.snd h)).ge] at hcalls

/-! ### `Encrypt` and `Decrypt` on valid parameters -/

section Facade
variable {P : Platform} {key : Key} {iv : Block} {msg : List Byte} {calls : List CipherCall}

theorem facadeEncrypt_eq_ok {out : List Byte} :
    facadeEncrypt P msg (some key) (some iv) = (calls, .ok out) ↔
      ∃ es, encChain P key iv (split msg) = (calls, .ok es) ∧ concat es = out := by
  simp only [facadeEncrypt]
  rcases encChain P key iv (split msg) with ⟨calls', ce | es⟩ <;> simp

/-- The length of what `Encrypt` answers (R202). -/
theorem length_of_facadeEncrypt {out : List Byte} (h : facadeEncrypt P msg (some key) (some iv) = (calls, .ok out)) :
    out.length = 16 * (msg.length / 16 + 1) := by
  obtain ⟨es, hchain, rfl⟩ := facadeEncrypt_eq_ok.1 h
  rw [length_concat, runChain_ok_length (congrArg Prod.snd hchain), length_split]

theorem facadeDecrypt_of_length (h : msg.length % 16 ≠ 0 ∨ msg.length < 16) :
    facadeDecrypt P msg (some key) (some iv) = ([], .error .invalidCiphertextLength) :=
  dif_pos h

theorem facadeDecrypt_of_chain_error {ce : CipherError} (hlen : ¬(msg.length % 16 ≠ 0 ∨ msg.length < 16))
    (h : decChain P key iv (ctsplit msg) = (calls, .error ce)) :
    facadeDecrypt P msg (some key) (some iv) = (calls, .error (.underlyingCipherFailure ce)) := by
  simp only [facadeDecrypt, dif_neg hlen]
  exact joinPlaintext_error _ h

theorem facadeDecrypt_of_chain_ok {blocks : List Block} (hlen : ¬(msg.length % 16 ≠ 0 ∨ msg.length < 16))
    (h : decChain P key iv (ctsplit msg) = (calls, .ok blocks)) (hne : blocks ≠ []) :
    facadeDecrypt P msg (some key) (some iv) = (calls, join blocks hne) := by
  simp only [facadeDecrypt, dif_neg hlen]
  exact joinPlaintext_ok _ h hne

/-- `Decrypt` answers `Ok` or `InvalidPadding` only after its whole chain has succeeded (R182, R223). -/
theorem decChain_ok_of_facadeDecrypt {r : Except ErrorKind (List Byte)}
    (h : facadeDecrypt P msg (some key) (some iv) = (calls, r))
    (hr : r = .error .invalidPadding ∨ ∃ out, r = .ok out) :
    ∃ blocks, decChain P key iv (ctsplit msg) = (calls, .ok blocks) := by
  by_cases hlen : msg.length % 16 ≠ 0 ∨ msg.length < 16
  · rw [facadeDecrypt_of_length hlen] at h
    cases h
    simp at hr
  · rcases hchain : decChain P key iv (ctsplit msg) with ⟨calls', ce | blocks⟩
    · rw [facadeDecrypt_of_chain_error hlen hchain] at h
      cases h
      simp at hr
    · have hne := decChain_ctsplit_ne_nil P key iv hlen blocks (by rw [hchain])
      rw [facadeDecrypt_of_chain_ok hlen hchain hne] at h
      cases h
      exact ⟨blocks, rfl⟩

end Facade

/-- Settles O57: the requests of the chain of each command, which has succeeded. -/
theorem capabilityUseOfEachCommand : Obligations.CapabilityUseOfEachCommand := by
  unfold Obligations.CapabilityUseOfEachCommand
  intro P msg key iv
  constructor
  · intro calls out h
    obtain ⟨es, hchain, rfl⟩ := facadeEncrypt_eq_ok.1 h
    obtain ⟨hlength, hcalls⟩ := calls_of_encChain_ok hchain
    refine ⟨hlength.trans (length_split msg), fun i c hc => ?_⟩
    obtain ⟨b, hb, rfl⟩ := hcalls i c hc
    exact ⟨rfl, rfl, b, hb, by rw [ctsplit_concat]; rfl⟩
  · intro calls r h hr
    obtain ⟨blocks, hchain⟩ := decChain_ok_of_facadeDecrypt h hr
    obtain ⟨hlength, hcalls⟩ := calls_of_decChain_ok hchain
    refine ⟨hlength.trans (by simp [ctsplit]), fun i c hc => ?_⟩
    obtain ⟨b, hb, rfl⟩ := hcalls i c hc
    exact ⟨rfl, rfl, hb⟩

/-- Settles O58: the decrypt chain gives back the blocks of `SPLIT` (R160), and `JOIN` undoes `SPLIT` (R135). -/
theorem facadeRoundTrip : Obligations.FacadeRoundTrip := by
  unfold Obligations.FacadeRoundTrip
  intro P msg out key iv calls hinverse h
  have hlength := length_of_facadeEncrypt h
  obtain ⟨es, hchain, rfl⟩ := facadeEncrypt_eq_ok.1 h
  have hdec : (decChain P key iv (ctsplit (concat es))).2 = .ok (split msg) := by
    rw [ctsplit_concat]
    exact decryptChainInvertsEncryptChain P key iv (split msg) es hinverse (congrArg Prod.snd hchain)
  have hjoin := facadeDecrypt_of_chain_ok (by omega) (Prod.ext rfl hdec) (split_ne_nil msg)
  rw [join_split] at hjoin
  exact ⟨_, hjoin⟩

end Sys2Proof.Machine

/-! PROOFS. The engine steps of spec/43_mode_facade.md section 3, one by one: START (R190) and the steps R191 to R197 of
both commands, each with all it changes and all it leaves. -/

namespace Sys2Proof.Machine

/-! ### START and the command that runs next -/

theorem decodeTableWord_eq_some {nbits w : Nat} {i : Instr} :
    decodeTableWord nbits w = some i ↔ decode (tableWord nbits w) = .ok i := by
  unfold decodeTableWord
  cases decode (tableWord nbits w) <;> simp

/-- With nothing on its way from outside, placing a word is START of it. -/
theorem withFetchWord_of_pending_nil {s : State} (h : s.pending = []) (nbits w : Nat) :
    s.withFetchWord nbits w = start (tableWord nbits w) s := by
  simp [State.withFetchWord, placeCommand, h, engineFirst, start]

/-- Settles O7: START latches the word and makes the engine busy, and the step runs the latched command. -/
theorem placedWordIsTheNextCommandRun : Obligations.PlacedWordIsTheNextCommandRun := by
  unfold Obligations.PlacedWordIsTheNextCommandRun
  intro s nbits w i hpending hd
  rw [withFetchWord_of_pending_nil hpending]
  have hbusy : (start (tableWord nbits w) s).phase ≠ .idle := by simp
  exact (stepRunsTheLatchedCommand _ i hbusy (decodeTableWord_eq_some.1 hd)).1 hpending

/-- Settles O20: the step of the write is START, which clears the result of the command before. -/
theorem acceptedCommandWriteStartsTheSequencer : Obligations.AcceptedCommandWriteStartsTheSequencer := by
  unfold Obligations.AcceptedCommandWriteStartsTheSequencer
  intro s w rest hb hp
  refine ⟨start w { s with pending := rest }, ?_, rfl, Memory.empty_read⟩
  rw [step_of_access hp]
  simp [performAccess, hostWriteReg, hb]

/-! ### DECODE -/

/-- A word is legal exactly when it passes the two tests of the DECODE step (R94, R191). -/
theorem exists_decode_iff {w : Word} :
    (∃ i, decode w = .ok i) ↔ ¬(rsvdField w ≠ 0x00 ∨ (opField w ≠ 0x01 ∧ opField w ≠ 0x02)) := by
  unfold decode
  split_ifs <;> simp_all

/-- Settles O9: the word is tested first, then the capacity, by the `OP` of the word. -/
theorem decodeStepChecksWordThenCapacity : Obligations.DecodeStepChecksWordThenCapacity := by
  unfold Obligations.DecodeStepChecksWordThenCapacity
  intro s hp hpending
  have hbusy : s.phase ≠ .idle := by simp [hp]
  rw [step_of_pending_nil hpending]
  split
  · rename_i hillegal
    obtain ⟨e, hd⟩ := exists_error_of_decode_ne_ok fun i hd => exists_decode_iff.1 ⟨i, hd⟩ hillegal
    rw [engineStep_of_illegal hbusy hd]
    simp only [illegalStep, hp]
  · rename_i hlegal
    obtain ⟨i, hd⟩ := exists_decode_iff.2 hlegal
    obtain ⟨-, hop, -⟩ := decode_eq_ok_iff.1 hd
    rw [engineStep_of_decode hbusy hd, exec_eq_execOn]
    cases i with
    | encrypt klen ivlen =>
      by_cases hcap : Config.platform.bufcap ≤ s.ilen.toNat <;>
        simp [execOn, encryptStep, hp, encryptDecode, hop, opcode, State.msgLen, hcap]
    | decrypt klen ivlen =>
      by_cases hcap : Config.platform.bufcap < s.ilen.toNat <;>
        simp [execOn, decryptStep, hp, decryptDecode, hop, opcode, State.msgLen, hcap]

/-! ### VALIDATE and LENCHECK -/

theorem exec_encrypt_of_validate {s : State} (hp : s.phase = .validate) (klen ivlen : Nat) :
    exec (.encrypt klen ivlen) s = .next (encryptValidate klen ivlen s) := by
  simp only [exec_eq_execOn, execOn, encryptStep, hp]

theorem exec_decrypt_of_validate {s : State} (hp : s.phase = .validate) (klen ivlen : Nat) :
    exec (.decrypt klen ivlen) s = .next (decryptValidate klen ivlen s) := by
  simp only [exec_eq_execOn, execOn, decryptStep, hp]

theorem exec_decrypt_of_lencheck {s : State} (hp : s.phase = .lencheck) (klen ivlen : Nat) :
    exec (.decrypt klen ivlen) s = .next (decryptLencheck s) := by
  simp only [exec_eq_execOn, execOn, decryptStep, hp]

/-- Settles O10: both lengths are tested at once, so the FAIL action is the same for either. -/
theorem validateStepChecksBothLengths : Obligations.ValidateStepChecksBothLengths := by
  unfold Obligations.ValidateStepChecksBothLengths
  intro s klen ivlen hp
  have htests (failed passed : State) :
      (if ivlen ≠ 16 ∨ ¬(klen = 16 ∨ klen = 24 ∨ klen = 32) then failed else passed) =
        if ValidParameters klen ivlen then passed else failed :=
    (if_congr not_and_or.symm rfl rfl).trans (ite_not _ _ _)
  rw [htests, htests]
  exact ⟨exec_encrypt_of_validate hp klen ivlen, exec_decrypt_of_validate hp klen ivlen⟩

/-- Settles O11: the step is the test of the length and the load of `CHAIN`. -/
theorem lengthCheckStepOfDecrypt : Obligations.LengthCheckStepOfDecrypt := by
  unfold Obligations.LengthCheckStepOfDecrypt
  intro s klen ivlen hp
  exact exec_decrypt_of_lencheck hp klen ivlen

/-! ### CHAIN -/

theorem exec_encrypt_of_chain {s : State} {klen ivlen : Nat} {key : Key} (hp : s.phase = .chain) (hb : s.blk < s.nblk)
    (hin : 16 * s.blk + 16 ≤ Config.platform.bufcap) (hk : keyOperand s.key klen = some key) :
    exec (.encrypt klen ivlen) s = .next (encryptRequest Config.platform key s) := by
  simp only [exec_eq_execOn, execOn, encryptStep, hp, encryptChain, if_neg (Nat.not_le.2 hb), if_neg (Nat.not_lt.2 hin),
    hk]

theorem exec_decrypt_of_chain {s : State} {klen ivlen : Nat} {key : Key} (hp : s.phase = .chain) (hb : s.blk < s.nblk)
    (hin : 16 * s.blk + 16 ≤ Config.platform.bufcap) (hk : keyOperand s.key klen = some key) :
    exec (.decrypt klen ivlen) s = .next (decryptRequest Config.platform key s) := by
  simp only [exec_eq_execOn, execOn, decryptStep, hp, decryptChain, if_neg (Nat.not_le.2 hb), if_neg (Nat.not_lt.2 hin),
    hk]

/-- A stored block of an ENCRYPT, with the last one's completion as a choice of two fields (R194). -/
theorem encryptStore_eq_blockStored (c : CipherCall) (e next : Block) {s : State} (hp : s.phase = .chain) :
    encryptStore e next (emit c s) =
      blockStored c e next (if s.blk + 1 = s.nblk then 16 * s.nblk else s.wlen)
        (if s.blk + 1 = s.nblk then .commit else .chain) s := by
  rw [encryptStore_eq, hp]
  split <;> rfl

/-- A stored block of a DECRYPT, with the last one's completion as a choice of the phase (R195). -/
theorem decryptStore_eq_blockStored (c : CipherCall) (p next : Block) {s : State} (hp : s.phase = .chain) :
    decryptStore p next (emit c s) =
      blockStored c p next s.wlen (if s.blk + 1 = s.nblk then .unpad else .chain) s := by
  rw [decryptStore_eq, hp]
  split <;> rfl

/-- What a stored block leaves, field by field. -/
theorem blockStored_frame (c : CipherCall) (b next : Block) (wlen : Nat) (phase : Phase) (s : State) :
    blockStored c b next wlen phase s =
      { s with
        trace := (blockStored c b next wlen phase s).trace, obuf := (blockStored c b next wlen phase s).obuf
        chain := next, blk := s.blk + 1, wlen := wlen, phase := phase } := rfl

/-- The block just stored is read back byte by byte. -/
theorem blockStored_read_inside {s : State} (h : s.obuf.wf) (c : CipherCall) (b next : Block) (wlen : Nat)
    (phase : Phase) (j : Fin 16) : (blockStored c b next wlen phase s).obuf.read (16 * s.blk + j.val) = b[j] := by
  have hj := j.isLt
  simp [blockStored, Memory.read_writeBlock h]

/-- The store of a block leaves every other byte of `OBUF` alone. -/
theorem blockStored_read_outside {s : State} (h : s.obuf.wf) (c : CipherCall) (b next : Block) (wlen : Nat)
    (phase : Phase) {a : Nat} (ha : a < 16 * s.blk ∨ 16 * s.blk + 16 ≤ a) :
    (blockStored c b next wlen phase s).obuf.read a = s.obuf.read a := by
  rw [blockStored, Memory.read_writeBlock h, dif_neg (by omega)]

/-- Settles O12: the request on `PB(BLK) XOR CHAIN`, and the block it answers stored at `16*BLK`. -/
theorem encryptChainStepCompletes : Obligations.EncryptChainStepCompletes := by
  unfold Obligations.EncryptChainStepCompletes
  intro s klen ivlen key hp hb hin hwf hklen hbytes
  have hk : keyOperand s.key klen = some key := keyOperand_eq_some.2 ⟨hklen, hbytes⟩
  refine ⟨_, xorBlock (plaintextBlock s s.blk) s.chain, exec_encrypt_of_chain hp hb hin hk, fun j => ?_, ?_⟩
  · rw [Fin.getElem_fin, getElem_xorBlock, getElem_plaintextBlock]
    rfl
  · obtain ⟨ce, hcipher, he⟩ | ⟨e, hcipher, he⟩ := encryptRequest_cases Config.platform key s <;>
      rw [he, show Config.cipherEnc key _ = _ from hcipher]
    · exact ⟨rfl, rfl⟩
    · rw [encryptStore_eq_blockStored _ e e hp]
      exact ⟨rfl, blockStored_frame _ e e _ _ s, blockStored_read_inside hwf _ e e _ _,
        fun a => blockStored_read_outside hwf _ e e _ _⟩

/-- Settles O13: the request on the ciphertext block, and its answer XOR `CHAIN` stored at `16*BLK`. -/
theorem decryptChainStepCompletes : Obligations.DecryptChainStepCompletes := by
  unfold Obligations.DecryptChainStepCompletes
  intro s klen ivlen key hp hb hin hwf hklen hbytes
  have hk : keyOperand s.key klen = some key := keyOperand_eq_some.2 ⟨hklen, hbytes⟩
  refine ⟨_, ciphertextBlock s s.blk, exec_decrypt_of_chain hp hb hin hk, fun j => ?_, ?_⟩
  · rw [Fin.getElem_fin, getElem_ciphertextBlock]
  · obtain ⟨ce, hcipher, he⟩ | ⟨d, hcipher, he⟩ := decryptRequest_cases Config.platform key s <;>
      rw [he, show Config.cipherDec key _ = _ from hcipher]
    · exact ⟨rfl, rfl⟩
    · rw [decryptStore_eq_blockStored _ _ _ hp]
      refine ⟨rfl, blockStored_frame _ _ _ _ _ s, fun j => ?_, fun a => blockStored_read_outside hwf _ _ _ _ _⟩
      rw [blockStored_read_inside hwf, Fin.getElem_fin, getElem_xorBlock]
      rfl

/-! ### UNPAD -/

/-- Zeros written from `a` on, byte by byte. -/
theorem Memory.read_writeZeros {m : Memory} (h : m.wf) (a n x : Nat) :
    (m.writeBytes a (List.replicate n 0x00)).read x = if a ≤ x ∧ x < a + n then 0x00 else m.read x := by
  rw [Memory.read_writeBytes _ h, List.getElem?_replicate]
  by_cases hx : a ≤ x
  · by_cases hn : x - a < n
    · simp [hx, hn, show x < a + n by omega]
    · simp [hx, hn, show ¬x < a + n by omega]
  · simp [hx]

theorem exec_decrypt_of_unpad {s : State} {klen ivlen : Nat} (hp : s.phase = .unpad) (hn : 1 ≤ s.nblk)
    (hin : 16 * s.nblk ≤ Config.platform.bufcap) : exec (.decrypt klen ivlen) s = .next (unpadLast s) := by
  simp only [exec_eq_execOn, execOn, decryptStep, hp]
  exact decryptUnpad_of_guards hn hin

/-- Settles O14: the tests are those of `padLength` on the last block, read byte by byte. -/
theorem unpadStepOfDecryptCompletes : Obligations.UnpadStepOfDecryptCompletes := by
  unfold Obligations.UnpadStepOfDecryptCompletes
  intro s klen ivlen hp hn hin hwf
  refine ⟨_, exec_decrypt_of_unpad hp hn hin, ?_⟩
  intro last n
  have hbad : padLength (lastBlock s) = none ↔
      n = 0 ∨ n > 16 ∨ ∃ j : Fin 16, 16 - n ≤ j.val ∧ last j.val ≠ last 15 := by
    rw [padLength_eq_none]
    simp [lastBlock, last, n]
  obtain ⟨hpad, he⟩ | ⟨k, hpad, he⟩ := unpadLast_cases s <;> rw [he]
  · rw [if_pos (hbad.1 hpad)]
  · rw [if_neg fun h => Option.some_ne_none k (hpad.symm.trans (hbad.2 h))]
    obtain ⟨hk, hpos, hle, -⟩ := padLength_eq_some.1 hpad
    obtain rfl : k = n := by simpa [lastBlock, last, n] using hk.symm
    refine ⟨rfl, fun hilen => congrArg (· - n) hilen.symm, fun a => ?_⟩
    rw [Memory.read_writeZeros hwf]
    exact if_congr (by omega) rfl rfl

/-! ### COMMIT -/

theorem exec_of_commit {s : State} (hp : s.phase = .commit) (i : Instr) : exec i s = .next (commit s) := by
  cases i with
  | encrypt => simp only [exec_eq_execOn, execOn, encryptStep, hp]
  | decrypt => simp only [exec_eq_execOn, execOn, decryptStep, hp]

/-- What the invariant says in COMMIT (R34, R50). -/
theorem chaining_of_commit {cap : Nat} {s : State} (h : s.ConsistentOn cap) (hp : s.phase = .commit) :
    ∃ i, Chaining cap i s ∧ s.obuf.Below s.wlen ∧ ResultLength i s := by
  obtain ⟨-, -, hph⟩ := h
  simp only [PhaseHolds, hp] at hph
  obtain ⟨i, hc, -, -, hbelow, hres⟩ := hph
  exact ⟨i, hc, hbelow, hres⟩

/-- `OLEN` holds the whole of `WLEN`, which is within the stores (R34, R50). -/
theorem toNat_olen_commit {P : Platform} {s : State} (h : s.ConsistentOn P.bufcap) (hp : s.phase = .commit) :
    (commit s).olen.toNat = s.wlen := by
  obtain ⟨i, hc, -, hres⟩ := chaining_of_commit h hp
  have hcap : s.wlen ≤ P.bufcap := (wlen_le_of_resultLength hres).trans (blocks_le_of_chaining hc)
  have := P.bufcap_bounds
  rw [commit_olen, BitVec.toNat_ofNat]
  omega

/-- Settles O15: COMMIT publishes `WLEN`, and the invariant has `CERR` 0 and `OBUF` zero beyond it. -/
theorem commitStepPublishesTheResult : Obligations.CommitStepPublishesTheResult := by
  unfold Obligations.CommitStepPublishesTheResult
  intro s i h hp
  have holen := toNat_olen_commit h hp
  obtain ⟨j, ⟨⟨-, hcerr⟩, -⟩, hbelow, -⟩ := chaining_of_commit h hp
  refine ⟨commit s, exec_of_commit hp i, rfl, holen, hcerr, fun a ha => ?_⟩
  exact Memory.read_of_below hbelow (holen ▸ ha)

/-- Settles O16: `WLEN` by the number of blocks of the command latched in `CMD`. -/
theorem publishedLengthOfEachCommand : Obligations.PublishedLengthOfEachCommand := by
  unfold Obligations.PublishedLengthOfEachCommand
  intro s t i h hp hd hs
  obtain ⟨j, hc, -, hres⟩ := chaining_of_commit h hp
  obtain rfl : i = j := Except.ok.inj (hd.symm.trans (decode_of_chaining hc))
  obtain ⟨-, -, hlen, hn, -⟩ := hc
  obtain rfl := eq_of_next_eq ((exec_of_commit hp i).symm.trans hs)
  rw [toNat_olen_commit h hp]
  cases i with
  | encrypt klen ivlen =>
    simp only [ResultLength, blocksOf, encryptBlocks, State.msgLen] at hres hn ⊢
    omega
  | decrypt klen ivlen =>
    simp only [ResultLength, LengthChecked, blocksOf, decryptBlocks, State.msgLen] at hres hlen hn ⊢
    omega

end Sys2Proof.Machine

/-! PROOFS. Whole commands on the machine (spec/43_mode_facade.md R198 to R206): the big-step result of each, the
bound on their steps, the ends of those that fail a check, and the round trip on the device. -/

namespace Sys2Proof.Machine

/-- Settles O37: the machine is the machine on `Config.platform`, where an issued command reaches its result. -/
theorem commandReachesItsFacadeResult : Obligations.CommandReachesItsFacadeResult := by
  unfold Obligations.CommandReachesItsFacadeResult
  intro s w i hpending hd ha
  have hissued : Issued Config.platform w i s := ⟨hpending, hd, ha⟩
  exact runs_iff_runsOn.2 hissued.reachesResult

/-! ### Every command ends -/

/-- The table of R198 at its longest: a command has at most `BUFCAP/16 + 5` steps left. -/
theorem stepsLeft_le {P : Platform} {s : State} (h : s.ConsistentOn P.bufcap) :
    stepsLeft P.bufcap s ≤ P.bufcap / 16 + 5 := by
  cases hp : s.phase
  case chain =>
    have hle := stepsLeft_le_of_chain h hp
    omega
  all_goals
    simp only [stepsLeft, hp]
    omega

/-- A command in progress completes within the steps it has left, by induction on a bound on them. -/
theorem runsOn_completed {P : Platform} (k : Nat) {s : State} (h : s.ConsistentOn P.bufcap) (hpending : s.pending = [])
    (hk : stepsLeft P.bufcap s ≤ k) (hdone : s.phase = .idle → s.status.done = true) :
    ∃ (n : Nat) (t : State), n ≤ k ∧ RunsOn P n s t ∧ t.phase = .idle ∧ t.status.done = true := by
  induction k generalizing s with
  | zero =>
    have hi : s.phase = .idle := by
      by_contra hi
      have := stepsLeft_pos (cap := P.bufcap) hi
      omega
    exact ⟨0, s, le_rfl, runsOn_zero.2 rfl, hi, hdone hi⟩
  | succ k ih =>
    by_cases hi : s.phase = .idle
    · exact ⟨0, s, Nat.zero_le _, runsOn_zero.2 rfl, hi, hdone hi⟩
    · obtain ⟨u, hu⟩ := engineStep_progress h
      have hmove := engineStep_move hu
      have hlt := stepsLeft_engineStep_lt h hi hu
      obtain ⟨n, t, hn, hrun, ht⟩ := ih (engineStep_consistentOn h hu) (hmove.frame.pending.trans hpending) (by omega)
        (hmove.done_of_idle hi)
      exact ⟨n + 1, t, Nat.succ_le_succ hn, runsOn_succ.2 ⟨u, (stepOn_of_pending_nil hpending).trans hu, hrun⟩, ht⟩

/-- Settles O39: an idle engine has ended, and a busy one has at most the steps of the longest command left. -/
theorem everyCommandEnds : Obligations.EveryCommandEnds := by
  unfold Obligations.EveryCommandEnds
  intro s h hpending
  by_cases hi : s.phase = .idle
  · exact ⟨0, s, Nat.zero_le _, runs_zero.2 rfl, hi, absurd hi⟩
  · obtain ⟨n, t, hn, hrun, ht, hdone⟩ := runsOn_completed _ h hpending (stepsLeft_le h) (absurd · hi)
    exact ⟨n, t, hn, runs_iff_runsOn.2 hrun, ht, fun _ => hdone⟩

/-! ### Commands that fail a check -/

/-- Settles O40: VALIDATE fails the command before any request. -/
theorem badParametersAreRejectedWithoutTheCipher : Obligations.BadParametersAreRejectedWithoutTheCipher := by
  unfold Obligations.BadParametersAreRejectedWithoutTheCipher
  intro s w i hpending hd ha hbad
  have hissued : Issued Config.platform w i s := ⟨hpending, hd, ha⟩
  have hinvalid : ¬ValidParameters i.klen i.ivlen := not_and_or.2 hbad.symm
  exact ⟨_, runs_iff_runsOn.2 (hissued.runsOn_invalidParameters hinvalid), rfl, rfl⟩

/-- Settles O41: LENCHECK fails the command before any request. -/
theorem badCiphertextLengthIsRejectedWithoutTheCipher :
    Obligations.BadCiphertextLengthIsRejectedWithoutTheCipher := by
  unfold Obligations.BadCiphertextLengthIsRejectedWithoutTheCipher
  intro s w klen hpending hd hklen ha hbad
  have hissued : Issued Config.platform w (.decrypt klen 16) s := ⟨hpending, hd, ha⟩
  have hlen : s.msgLen % 16 ≠ 0 ∨ s.msgLen < 16 := by
    rw [State.msgLen]
    omega
  exact ⟨_, runs_iff_runsOn.2 (hissued.runsOn_invalidLength ⟨rfl, hklen⟩ hlen), rfl, rfl⟩

/-- Settles O42: the big-step result is the failed `JOIN`, after the requests of the whole chain. -/
theorem badPaddingIsRejectedAfterTheWholeChain : Obligations.BadPaddingIsRejectedAfterTheWholeChain := by
  unfold Obligations.BadPaddingIsRejectedAfterTheWholeChain
  intro P s w klen key calls blocks last hpending hd hk ha hmod h16 hchain hlast hbad
  have hissued : Issued P w (.decrypt klen 16) s := ⟨hpending, hd, ha⟩
  have hcount : calls.length = s.msgLen / 16 := by
    simpa [ctsplit] using (calls_of_decChain_ok hchain).1
  obtain ⟨init, rfl⟩ := List.getLast?_eq_some_iff.1 hlast
  have hne : init ++ [last] ≠ [] := by simp
  have hresult : facadeResult P (.decrypt klen 16) s = (calls, .error .invalidPadding) := by
    rw [facadeResult_decrypt_ok hk (by omega) ((decChain_ctsplit P key klen 16 s).symm.trans hchain) hne,
      join_append_none hne (padLength_eq_none.2 hbad)]
  have hrun := hissued.reachesResult
  rw [hresult, ReachesResult, engineSteps, hcount] at hrun
  exact ⟨_, hrun, rfl, hcount, Memory.empty_read⟩

/-! ### The round trip on the device -/

/-- A run of an engine with nothing on its way leaves nothing on its way. -/
theorem pending_nil_of_runsOn {P : Platform} {n : Nat} {s t : State} (hpending : s.pending = [])
    (h : RunsOn P n s t) : t.pending = [] := by
  induction n generalizing s with
  | zero =>
    obtain rfl := runsOn_zero.1 h
    exact hpending
  | succ n ih =>
    obtain ⟨u, hu, hrun⟩ := runsOn_succ.1 h
    rw [stepOn_of_pending_nil hpending] at hu
    exact ih ((engineStep_move hu).frame.pending.trans hpending) hrun

/-- An idle engine with nothing on its way stays as it is for any number of steps (R237). -/
theorem runsOn_of_idle {P : Platform} (n : Nat) {s : State} (hpending : s.pending = []) (hp : s.phase = .idle) :
    RunsOn P n s s := by
  induction n with
  | zero => exact runsOn_zero.2 rfl
  | succ n ih =>
    refine runsOn_succ.2 ⟨s, ?_, ih⟩
    rw [stepOn_of_pending_nil hpending, engineStep_of_idle hp]

/-- A run has one end. -/
theorem runsOn_unique {P : Platform} {n : Nat} {s t u : State} (ht : RunsOn P n s t) (hu : RunsOn P n s u) : t = u :=
  Host.Outcome.next.inj (ht.symm.trans hu)

/-- Two runs of an engine with nothing on its way that both end idle end in one state: either goes on as it is until the
other ends. -/
theorem eq_of_runsOn_idle {P : Platform} {m n : Nat} {s t u : State} (hpending : s.pending = [])
    (ht : RunsOn P m s t) (hti : t.phase = .idle) (hu : RunsOn P n s u) (hui : u.phase = .idle) : t = u := by
  have ht' : RunsOn P (m + n) s t := runsOn_add ht (runsOn_of_idle n (pending_nil_of_runsOn hpending ht) hti)
  have hu' : RunsOn P (n + m) s u := runsOn_add hu (runsOn_of_idle m (pending_nil_of_runsOn hpending hu) hui)
  exact runsOn_unique ht' (Nat.add_comm n m ▸ hu')

/-- The state in which an issued command ends, however long the run that finds it idle. -/
theorem Issued.eq_finish {P : Platform} {w : Word} {i : Instr} {s t : State} (h : Issued P w i s) {n : Nat}
    (hrun : RunsOn P n (start w s) t) (hidle : t.phase = .idle) : t = finish (facadeResult P i s) (start w s) :=
  eq_of_runsOn_idle (s := start w s) h.pending hrun hidle h.reachesResult
    (completed_finish (facadeResult P i s) w s).phase

/-- Only an `Ok` result ends in code 0 (R220). -/
theorem exists_ok_of_resultCode {r : Except ErrorKind (List Byte)} (h : resultCode r = .ok) : ∃ out, r = .ok out := by
  cases r with
  | ok out => exact ⟨out, rfl⟩
  | error e => cases e <;> cases h

/-- Bytes stored from the start on are read back. -/
theorem Memory.readBytes_writeBytes (out : List Byte) :
    (Memory.empty.writeBytes 0 out).readBytes 0 out.length = out := by
  apply List.ext_getElem
  · simp
  · intro j _ hj
    simp [Memory.read_writeBytes out Memory.empty_wf, hj]

/-- `t` shows the result `out` of a command that `s` ran: it still holds the key and the IV (R46, R199). -/
structure Shows (out : List Byte) (s t : State) : Prop where
  key : t.key = s.key
  iv : t.iv = s.iv
  pending : t.pending = s.pending
  obuf : t.obuf = Memory.empty.writeBytes 0 out
  olen : t.olen = BitVec.ofNat 32 out.length

theorem shows_finish (calls : List CipherCall) (out : List Byte) (w : Word) (s : State) :
    Shows out s (finish (calls, .ok out) (start w s)) := ⟨rfl, rfl, rfl, rfl, rfl⟩

/-- The result of a command fed back as the next message (R100): `IBUF` as `OBUF` was, `ILEN` as `OLEN` was. -/
def fedBack (t : State) : State := { t with ibuf := t.obuf, ilen := t.olen }

theorem Shows.msgLen_fedBack {out : List Byte} {s t : State} (h : Shows out s t) (hsmall : out.length < 4294967296) :
    (fedBack t).msgLen = out.length := by
  simp only [State.msgLen, fedBack, h.olen, BitVec.toNat_ofNat]
  omega

theorem Shows.message_fedBack {out : List Byte} {s t : State} (h : Shows out s t) (hsmall : out.length < 4294967296) :
    (fedBack t).message = out := by
  rw [State.message, h.msgLen_fedBack hsmall, show (fedBack t).ibuf = _ from h.obuf]
  exact Memory.readBytes_writeBytes out

theorem facadeResult_encrypt {P : Platform} {klen : Nat} {key : Key} {s : State}
    (hk : keyOperand s.key klen = some key) :
    facadeResult P (.encrypt klen 16) s = facadeEncrypt P s.message (some key) (some s.iv) := by
  simp [facadeResult, hk, ivOperand]

theorem facadeResult_decrypt {P : Platform} {klen : Nat} {key : Key} {s : State}
    (hk : keyOperand s.key klen = some key) :
    facadeResult P (.decrypt klen 16) s = facadeDecrypt P s.message (some key) (some s.iv) := by
  simp [facadeResult, hk, ivOperand]

/-- A word of a command with valid parameters decodes to it. -/
theorem decode_encode_of_valid {i : Instr} (h : ValidParameters i.klen i.ivlen) : decode (encode i) = .ok i := by
  obtain ⟨hiv, hk⟩ := h
  exact decode_encode (wellFormed_iff.2 (by omega))

/-- An ENCRYPT found completed with code 0 shows the answer of `Encrypt`. -/
theorem Issued.shows_encrypt {P : Platform} {w : Word} {klen n : Nat} {key : Key} {s t : State}
    (h : Issued P w (.encrypt klen 16) s) (hk : keyOperand s.key klen = some key) (hrun : RunsOn P n (start w s) t)
    (hidle : t.phase = .idle) (hcode : t.status.code = .ok) :
    ∃ calls out, facadeEncrypt P s.message (some key) (some s.iv) = (calls, .ok out) ∧ Shows out s t := by
  obtain rfl := h.eq_finish hrun hidle
  have hdone := completed_finish (facadeResult P (.encrypt klen 16) s) w s
  rw [hdone.status, Status.completed_code, facadeResult_encrypt hk] at hcode
  obtain ⟨out, hout⟩ := exists_ok_of_resultCode hcode
  have hresult : facadeEncrypt P s.message (some key) (some s.iv) = (_, .ok out) := Prod.ext rfl hout
  refine ⟨_, out, hresult, ?_⟩
  rw [facadeResult_encrypt hk, hresult]
  exact shows_finish _ out w s

/-- Settles O45: the device shows the answer of `Encrypt`, which it takes as the message of a DECRYPT, and then shows
what `Decrypt` makes of it, which is the message (R203). -/
theorem decryptOfEncryptRestoresTheMessageOnTheDevice :
    Obligations.DecryptOfEncryptRestoresTheMessageOnTheDevice := by
  unfold Obligations.DecryptOfEncryptRestoresTheMessageOnTheDevice
  intro P s t klen n hinverse hpending hklen hlen hrun hidle hcode
  obtain ⟨key, hk⟩ := keyOperand_isSome (store := s.key) hklen
  have henc : Issued P _ (.encrypt klen 16) s := ⟨hpending, decode_encode_of_valid ⟨rfl, hklen⟩, hlen⟩
  obtain ⟨calls, out, hresult, hshows⟩ := henc.shows_encrypt hk hrun hidle hcode
  obtain ⟨calls', hback⟩ := facadeRoundTrip P s.message out key s.iv calls hinverse hresult
  have houtlen : out.length ≤ P.bufcap ∧ out.length < 4294967296 := by
    have hcap := P.bufcap_bounds
    rw [length_of_facadeEncrypt hresult, length_message]
    omega
  have hdec : Issued P _ (.decrypt klen 16) (fedBack t) :=
    ⟨hshows.pending.trans hpending, decode_encode_of_valid ⟨rfl, hklen⟩,
      (hshows.msgLen_fedBack houtlen.2).trans_le houtlen.1⟩
  have hreaches := hdec.reachesResult
  rw [facadeResult_decrypt (key := key) (hshows.key ▸ hk), hshows.message_fedBack houtlen.2,
    show (fedBack t).iv = s.iv from hshows.iv, hback] at hreaches
  have hfinal := shows_finish calls' s.message (encode (.decrypt klen 16)) (fedBack t)
  refine ⟨_, _, hreaches, rfl, rfl, rfl, ?_, ?_⟩
  · simp [hfinal.olen, State.msgLen]
  · rw [hfinal.obuf, ← length_message s]
    exact Memory.readBytes_writeBytes s.message

end Sys2Proof.Machine

/-! PROOFS. The end of a command by FAIL, and the idle engine (spec/60_exceptions.md R226, R237). -/

namespace Sys2Proof.Machine

/-- A busy engine that becomes idle with a code other than `Ok` took the FAIL action, which wraps an error only for the
cipher's failure; besides it, the move may have recorded a request (R226). -/
theorem EngineMove.eq_fail {s t : State} (h : EngineMove s t) (hs : s.phase ≠ .idle) (ht : t.phase = .idle)
    (hcode : t.status.code ≠ .ok) :
    ∃ code ce, t = fail code ce { s with trace := t.trace } ∧ (code ≠ .underlyingCipherFailure → ce = 0) := by
  cases h with
  | stay idle => exact absurd idle hs
  | pass nblk chain phase busy => exact absurd ht busy
  | store c obuf chain wlen phase busy => exact absurd ht busy
  | strip => cases ht
  | publish => exact absurd rfl hcode
  | reject code => exact ⟨code, 0, rfl, fun _ => rfl⟩
  | cipherFailure c ce => exact ⟨.underlyingCipherFailure, ce, rfl, fun hne => absurd rfl hne⟩

/-- Settles O17: the step is a move of the engine, of which only FAIL ends a command with a code other than `Ok`. -/
theorem failureLeavesExactlyTheFailAction : Obligations.FailureLeavesExactlyTheFailAction := by
  unfold Obligations.FailureLeavesExactlyTheFailAction
  intro s t hs hpending hstep ht hcode
  rw [step_of_pending_nil hpending, exec_eq_execOn] at hstep
  obtain ⟨code, ce, hfail, hce⟩ := (engineStep_move hstep).eq_fail hs ht hcode
  have hobuf : t.obuf = .empty := by rw [hfail, fail_obuf]
  refine ⟨code, ce, ?_, fun a => ?_, hce⟩
  · rw [hobuf]
    exact hfail
  · rw [hobuf]
    exact Memory.empty_read a

/-- Settles O8: with nothing on its way the step is the engine's, and an idle engine's step is none. -/
theorem idleEngineKeepsItsState : Obligations.IdleEngineKeepsItsState := by
  unfold Obligations.IdleEngineKeepsItsState
  intro s hp hpending
  rw [step_of_pending_nil hpending, engineStep_of_idle hp]

end Sys2Proof.Machine

/-! PROOFS. The two example commands of spec/70_reset_and_hazards.md R253: a command written straight after reset reaches
its big-step result on the operands reset leaves, the empty message under the all-zero key and IV. -/

namespace Sys2Proof.Machine

/-! ### `Encrypt` of the empty message -/

/-- The empty message is padded to one block of sixteen bytes `0x10` (R110, R130). -/
theorem split_nil : split [] = [Vector.replicate 16 0x10] := by
  have hpad : pad (finalChunk []) (finalChunk_short []) = Vector.replicate 16 0x10 := by
    ext j hj : 1
    rw [getElem_pad _ _ _ hj, Vector.getElem_replicate]
    rfl
  rw [split_eq_ctsplit_append, hpad]
  rfl

/-- `Encrypt` of a message of one padded block makes one request and ends as it is answered (R154, R156, R181). -/
theorem facadeEncrypt_singleton_cases (P : Platform) (key : Key) (iv : Block) {msg : List Byte} {b : Block}
    (hsplit : split msg = [b]) :
    (∃ e, P.cipherEnc key (xorBlock b iv) = .ok e ∧
      facadeEncrypt P msg (some key) (some iv) = ([⟨.enc, key, xorBlock b iv, .ok e⟩], .ok e.toList)) ∨
    (∃ ce, P.cipherEnc key (xorBlock b iv) = .err ce ∧
      facadeEncrypt P msg (some key) (some iv) =
        ([⟨.enc, key, xorBlock b iv, .err ce⟩], .error (.underlyingCipherFailure ce))) := by
  obtain ⟨e, hcipher, hstep⟩ | ⟨ce, hcipher, hstep⟩ := encStep_cases P key iv b
  · exact .inl ⟨e, hcipher, by simp [facadeEncrypt, encChain, hsplit, runChain, hstep]⟩
  · exact .inr ⟨ce, hcipher, by simp [facadeEncrypt, encChain, hsplit, runChain, hstep]⟩

/-! ### A command written straight after reset -/

/-- The first 16 bytes of `KEY` after reset (R48). -/
theorem keyOperand_reset : keyOperand State.reset.key 16 = some ⟨List.replicate 16 0x00, Or.inl rfl⟩ :=
  keyOperand_eq_some.2 ⟨.inl rfl, rfl⟩

/-- The operands reset leaves are the empty message and the all-zero IV, so the one request is for the padding block
itself (R48, R253). -/
theorem facadeResult_reset_cases (P : Platform) {key : Key} (hk : keyOperand State.reset.key 16 = some key) :
    (∃ e calls, P.cipherEnc key (Vector.replicate 16 0x10) = .ok e ∧ calls.length = 1 ∧
      facadeResult P (.encrypt 16 16) State.reset = (calls, .ok e.toList)) ∨
    (∃ ce calls, P.cipherEnc key (Vector.replicate 16 0x10) = .err ce ∧ calls.length = 1 ∧
      facadeResult P (.encrypt 16 16) State.reset = (calls, .error (.underlyingCipherFailure ce))) := by
  have hxor : xorBlock (Vector.replicate 16 0x10) State.reset.iv = Vector.replicate 16 0x10 := xorBlock_zero _
  rw [facadeResult_encrypt hk]
  obtain ⟨e, hcipher, hresult⟩ | ⟨ce, hcipher, hresult⟩ := facadeEncrypt_singleton_cases P key State.reset.iv split_nil
  · exact .inl ⟨e, _, hxor ▸ hcipher, rfl, hresult⟩
  · exact .inr ⟨ce, _, hxor ▸ hcipher, rfl, hresult⟩

/-- Every legal command is within capacity after reset, where `ILEN` is 0 (R48, R191). -/
theorem issued_reset (P : Platform) {w : Word} {i : Instr} (hd : decode w = .ok i) : Issued P w i State.reset := by
  refine ⟨rfl, hd, ?_⟩
  cases i with
  | encrypt => exact Nat.lt_of_lt_of_le (by decide) P.bufcap_bounds.1
  | decrypt => exact Nat.zero_le _

/-- A legal command written straight after reset: one step for the write, then those of the command (R190, R198). -/
theorem runs_firstCommand {w : Word} {i : Instr} {r : List CipherCall × Except ErrorKind (List Byte)}
    (hd : decode w = .ok i) (hr : facadeResult Config.platform i State.reset = r) :
    Runs (1 + engineSteps i r.1 r.2) { State.reset with pending := [.access (.writeReg 0 w)] }
      (finish r (start w State.reset)) := by
  subst hr
  exact runs_add (runs_write_cmd rfl rfl) (runs_iff_runsOn.2 (issued_reset _ hd).reachesResult)

/-- A result of one block stands in `OBUF` from its start on. -/
theorem read_writeBytes_block (e : Block) (j : Fin 16) : (Memory.empty.writeBytes 0 e.toList).read j.val = e[j] := by
  have hread := Memory.read_writeBlock Memory.empty_wf 0 e j.val
  rwa [dif_pos (by omega)] at hread

/-- Settles O44: the first command is the ENCRYPT of the empty message, which ends as the cipher answers its one
request; the second fails VALIDATE. -/
theorem firstCommandsAfterReset : Obligations.FirstCommandsAfterReset := by
  unfold Obligations.FirstCommandsAfterReset
  have hencrypt : decode 0x00101001 = .ok (.encrypt 16 16) := decode_encode (i := .encrypt 16 16) rfl
  have hinvalid : decode 0x00000001 = .ok (.encrypt 0 0) := decode_encode (i := .encrypt 0 0) rfl
  refine ⟨?_, _, runs_firstCommand hinvalid (facadeResult_of_invalid (by decide)), rfl, rfl⟩
  obtain ⟨e, calls, hcipher, hcalls, hresult⟩ | ⟨ce, calls, hcipher, hcalls, hresult⟩ :=
    facadeResult_reset_cases Config.platform keyOperand_reset
  all_goals
    have hrun := runs_firstCommand hencrypt hresult
    simp only [engineSteps, hcalls] at hrun
    rw [show Config.cipherEnc _ _ = _ from hcipher]
  · have hshows := shows_finish calls e.toList 0x00101001 State.reset
    refine ⟨_, hrun, rfl, ?_, fun j => ?_⟩
    · rw [hshows.olen, Vector.length_toList]
      rfl
    · rw [hshows.obuf]
      exact read_writeBytes_block e j
  · exact ⟨_, hrun, rfl, rfl, rfl⟩

end Sys2Proof.Machine
